-- ==== Sys2Proof/Config.lean ====
section
/-! DEFINITION. The implementation parameters of the TinyVM core (spec/00_scope.md R6) and what memory reads as
where nothing is listed (spec/10_state.md R32, R34). The spec gives every one a value, so none is opaque. -/

namespace Sys2Proof

/-- `WORD_WIDTH`: the width `W` of a memory word, of ACC and of REG[i] (R6, decision D1). -/
@[simp] abbrev Config.wordWidth : Nat := 32

/-- `MEM_SIZE`: the number of words of the MemoryBank (R6). -/
@[simp] abbrev Config.memSize : Nat := 128

/-- `NUM_OPCODES`: the recognized opcodes are `0 .. numOpcodes - 1` (R6). -/
@[simp] abbrev Config.numOpcodes : Int := 13

/-- `PACK_BASE`: the radix of the packing (R6). -/
@[simp] abbrev Config.packBase : Int := 100

/-- `PC0` where the launch gives no other value (R6, R154). -/
@[simp] abbrev Config.pc0 : BitVec 8 := 0

/-- What a byte of memory that is not listed reads as: reset makes every word 0 (R32, R34). -/
@[simp] abbrev Config.unlistedByte : BitVec 8 := 0

end Sys2Proof
end

