-- ==== Sys2Proof/Word.lean ====
section
/-! DEFINITION. The machine word, the byte a word is stored as, and the 8-bit register type of PC and PS
(spec/00_scope.md R6, R8). -/

namespace Sys2Proof

/-- A W-bit word, `W = 32`, two's complement; its integer value is `BitVec.toInt` (R6, R10). -/
abbrev Word := BitVec 32

/-- The unit memory is held in (no rule sees it: R41). -/
abbrev Byte := BitVec 8

/-- The type of PC, PS and FR.addr: 8 bits unsigned (R6 `PC_BITS`, `PS_BITS`; R29). -/
abbrev Index8 := BitVec 8

end Sys2Proof
end

