-- ==== Sys2Proof/Syntax.lean ====
section
/-! DEFINITION. The instructions of the TinyVM ISA: one constructor per row of spec/opcode_table.json
(spec/30_encoding.md R61, R63). -/

namespace Sys2Proof

/-- An instruction, as Decode gives it. The operand is the signed decimal digit group of the word, not a bit field
(R10, R55, R62), so it is an integer. -/
inductive Instr where
  /-- LA, opcode 0, data address (R85). -/
  | la (opd : Int)
  /-- SA, opcode 1, data address (R86). -/
  | sa (opd : Int)
  /-- AA, opcode 2, data address (R91). -/
  | aa (opd : Int)
  /-- MUL, opcode 3, data address (R92). -/
  | mul (opd : Int)
  /-- DIV, opcode 4, data address (R93). -/
  | div (opd : Int)
  /-- SUB, opcode 5, data address (R94). -/
  | sub (opd : Int)
  /-- JMP, opcode 6, jump base (R100). -/
  | jmp (opd : Int)
  /-- JEQ, opcode 7, jump base (R101). -/
  | jeq (opd : Int)
  /-- JGT, opcode 8, jump base (R102). -/
  | jgt (opd : Int)
  /-- JLT, opcode 9, jump base (R103). -/
  | jlt (opd : Int)
  /-- PW, opcode 10, data address (R110). -/
  | pw (opd : Int)
  /-- RW, opcode 11, data address (R111). -/
  | rw (opd : Int)
  /-- STOP, opcode 12; the operand is ignored but is part of the word (R63, R115). -/
  | stop (opd : Int)
  /-- A word whose opcode is outside 0..12; the report carries the word and the opcode (R63, R116). -/
  | unrecognized (opcode opd : Int)
  deriving DecidableEq, Repr

end Sys2Proof
end

