-- ==== Sys2Proof/WellFormed.lean ====
section
/-! DEFINITION. Which terms of `Instr` some word decodes to (spec/30_encoding.md R59, R61, R63). -/

namespace Sys2Proof

/-- The operand of a recognized opcode other than 0 is a two-digit number (R59). -/
def operandOk (opd : Int) : Bool := decide (0 ≤ opd ∧ opd ≤ 99)

/-- LA's operand may be negative: the words -99..-1 (R59). -/
def laOperandOk (opd : Int) : Bool := decide (-99 ≤ opd ∧ opd ≤ 99)

/-- The opcode is outside the closed set 0..12 (R63). -/
def opcodeUnrecognized (opcode : Int) : Bool := decide (opcode < 0 ∨ 13 ≤ opcode)

/-- A digit group has at most two digits and the sign of the word, which an opcode other than 0 shows (R57, R59). -/
def digitsAgree (opcode opd : Int) : Bool :=
  decide ((0 < opcode → 0 ≤ opd ∧ opd ≤ 99) ∧ (opcode < 0 → -99 ≤ opd ∧ opd ≤ 0))

/-- The packed value is a W-bit word (R6, R59). -/
def packFits (opcode opd : Int) : Bool :=
  decide (-2147483648 ≤ opcode * 100 + opd ∧ opcode * 100 + opd < 2147483648)

/-- The instruction is one that some word stands for. -/
def Instr.wf : Instr → Bool
  | .la opd => laOperandOk opd
  | .sa opd => operandOk opd
  | .aa opd => operandOk opd
  | .mul opd => operandOk opd
  | .div opd => operandOk opd
  | .sub opd => operandOk opd
  | .jmp opd => operandOk opd
  | .jeq opd => operandOk opd
  | .jgt opd => operandOk opd
  | .jlt opd => operandOk opd
  | .pw opd => operandOk opd
  | .rw opd => operandOk opd
  | .stop opd => operandOk opd
  | .unrecognized opcode opd => opcodeUnrecognized opcode && digitsAgree opcode opd && packFits opcode opd

end Sys2Proof
end

