-- ==== Sys2Proof/Decode.lean ====
section
/-! DEFINITION. The instruction codec: Decode and the opcode map, Encode, and the byte forms of both
(spec/30_encoding.md R55 to R63). Decode is total and cannot fail (R57); the only thing the byte form rejects, by
name, is a list with fewer bytes than a word. -/

namespace Sys2Proof

/-- `wrap_W(v)`: the W-bit two's-complement value congruent to `v` modulo `2^W` (R7). -/
def wrapW (v : Int) : Word := BitVec.ofInt 32 v

/-- The hundreds-and-above part of a word, `tdiv(w, 100) * 100` (R44). -/
def highDigits (w : Word) : Int := w.toInt.tdiv Config.packBase * Config.packBase

/-- `Decode(w)`: the opcode `tdiv(w, 100)` and the operand `trem(w, 100)` (R57). -/
def decodeFields (w : Word) : Int × Int :=
  (w.toInt.tdiv Config.packBase, w.toInt.tmod Config.packBase)

/-- The opcode map (R61): the instruction an opcode value names. -/
def instrOf (opcode opd : Int) : Instr :=
  if opcode = 0 then .la opd
  else if opcode = 1 then .sa opd
  else if opcode = 2 then .aa opd
  else if opcode = 3 then .mul opd
  else if opcode = 4 then .div opd
  else if opcode = 5 then .sub opd
  else if opcode = 6 then .jmp opd
  else if opcode = 7 then .jeq opd
  else if opcode = 8 then .jgt opd
  else if opcode = 9 then .jlt opd
  else if opcode = 10 then .pw opd
  else if opcode = 11 then .rw opd
  else if opcode = 12 then .stop opd
  else .unrecognized opcode opd

/-- The instruction a word stands for: every word is one (R57, R63). -/
def decode (w : Word) : Instr := instrOf (decodeFields w).1 (decodeFields w).2

/-- `Encode(opcode, operand)`: no validation of either argument, wrapped at W bits (R58). -/
def encodePair (opcode opd : Int) : Word := wrapW (opcode * Config.packBase + opd)

/-- The opcode value of an instruction (R61). -/
def Instr.opcode : Instr → Int
  | .la _ => 0
  | .sa _ => 1
  | .aa _ => 2
  | .mul _ => 3
  | .div _ => 4
  | .sub _ => 5
  | .jmp _ => 6
  | .jeq _ => 7
  | .jgt _ => 8
  | .jlt _ => 9
  | .pw _ => 10
  | .rw _ => 11
  | .stop _ => 12
  | .unrecognized opcode _ => opcode

/-- The operand digits of an instruction (R62). -/
def Instr.operand : Instr → Int
  | .la opd | .sa opd | .aa opd | .mul opd | .div opd | .sub opd | .jmp opd | .jeq opd | .jgt opd | .jlt opd
  | .pw opd | .rw opd | .stop opd => opd
  | .unrecognized _ opd => opd

/-- The word of an instruction (R58, R61). -/
def encode (i : Instr) : Word := encodePair i.opcode i.operand

/-- Byte `k` of a word, byte 0 the least significant. -/
def byteOf (w : Word) (k : Nat) : Byte := BitVec.ofNat 8 (w.toNat / 256 ^ k)

/-- The word of four bytes, the least significant first. DESIGN CHOICE (log 1, safe): R41 lets a model that stores words
as bytes use any order. -/
def wordOfBytes (b0 b1 b2 b3 : Byte) : Word :=
  BitVec.ofNat 32 (b0.toNat + 256 * b1.toNat + 65536 * b2.toNat + 16777216 * b3.toNat)

/-- The bytes of a word in the order memory holds them. -/
def bytesOfWord (w : Word) : List Byte := [byteOf w 0, byteOf w 1, byteOf w 2, byteOf w 3]

/-- The bytes of an instruction in the order memory holds them. -/
def encodeBytes (i : Instr) : List Byte := bytesOfWord (encode i)

/-- Why a list of bytes holds no instruction. -/
inductive DecodeError where
  /-- Fewer bytes than one word: every instruction is one word (R56). -/
  | truncated
  deriving DecidableEq, Repr

/-- The instruction at the head of a list of bytes and the bytes after it (R56: one length). -/
def decodeBytes : List Byte → Except DecodeError (Instr × List Byte)
  | b0 :: b1 :: b2 :: b3 :: rest => .ok (decode (wordOfBytes b0 b1 b2 b3), rest)
  | _ => .error .truncated

/-- The word whose bits 0 .. nbits-1 are those of `w` and whose other bits are 0. -/
def tableWord (nbits w : Nat) : Word := BitVec.ofNat 32 (w % 2 ^ nbits)

/-- What the decoder reads from the word `w` of `nbits` bits, laid out as memory holds it. -/
def decodeTableWord (nbits w : Nat) : Option Instr :=
  match decodeBytes (bytesOfWord (tableWord nbits w)) with
  | .ok (i, _) => some i
  | .error _ => none

end Sys2Proof
end

