-- ==== Sys2Proof/Machine/State.lean ====
section
/-! DEFINITION. The state of the TinyVM core (spec/10_state.md R20 to R34), the observation history a run produces
(spec/00_scope.md R9), the host's side of the interface as data (spec/60_exceptions.md R142), and the state after
reset. -/

namespace Sys2Proof.Machine

/-- `RS`, the engine state (R28). -/
inductive RunState where
  /-- After reset, while the image is loaded; no step is taken. -/
  | idle
  /-- Steps are taken. -/
  | running
  /-- Halted normally by STOP. -/
  | stopped
  /-- Halted by a fatal fault, whose kind is in `FR.kind`. -/
  | faulted
  deriving DecidableEq, Repr

/-- `FR.kind` (R29, R121). -/
inductive FaultKind where
  | none
  | divisionByZero
  | pcOutOfBounds
  | operandOutOfBounds
  deriving DecidableEq, Repr

/-- `FR`, the fault record (R29). -/
structure FaultRecord where
  kind : FaultKind
  addr : Index8
  operand : Word
  deriving DecidableEq, Repr

/-- The fault record of a machine in which no fatal fault was raised (R29, R34). -/
def FaultRecord.clear : FaultRecord := { kind := .none, addr := 0, operand := 0 }

/-- One entry of the observation history (R9). -/
inductive Event where
  /-- PW emitted the whole stored word (R110). -/
  | output (value : Word)
  /-- An unrecognized opcode was stepped over: its address, its word, its opcode (R116, R122). -/
  | unknownOpcode (addr : Index8) (word : Word) (opcode : Int)
  deriving DecidableEq, Repr

/-- The interactions by which the host changes the core between steps (R142). The ranges of the arguments are those
the host may send (log 12). -/
inductive HostCmd where
  /-- Every item to its reset value (R150). -/
  | reset
  /-- The load interface writes one word (R151). -/
  | loadWrite (addr : Fin 128) (value : Word)
  /-- The load ends: `programSize`, and the start address `PC0` (R142, R152, R154). -/
  | loadDone (ps : Fin 129) (pc0 : Index8)
  /-- The run begins (R154). -/
  | start
  deriving DecidableEq, Repr

/-- The MemoryBank as a list of (byte key, byte) pairs: word `a` stands at the keys `4a .. 4a+3`, least significant
byte first (log 1; R41: "it may use any order, since no rule can see it"). -/
abbrev Memory := List Host.Cell

/-- The one form a memory has: keys strictly rising and below `4 * MEM_SIZE`, no byte listed that an unlisted one
reads as. -/
abbrev Memory.wf (m : Memory) : Prop :=
  m.Pairwise (fun c d => c.1 < d.1) ∧ ∀ c ∈ m, c.2 ≠ Config.unlistedByte ∧ c.1 < 4 * Config.memSize

/-- The machine's state. The first nine fields are the architectural state of R20, the tenth is the observation
history of R9, and the last two, the model's own, are what the host has yet to do (R33, R142; log 3). -/
@[ext]
structure State where
  /-- `ACC` (R21). -/
  acc : Word
  /-- `PC` (R24, R25). -/
  pc : Index8
  /-- `REG[0]`, reserved (R22). -/
  reg0 : Word
  /-- `REG[1]`, reserved (R22). -/
  reg1 : Word
  /-- `PS`, the advisory `programSize` (R27). -/
  ps : Index8
  /-- `RS` (R28). -/
  rs : RunState
  /-- `FR` (R29). -/
  fr : FaultRecord
  /-- `WAITING`: an RW is blocked on the input channel (R30). -/
  waiting : Bool
  /-- `M[0..127]` (R32). -/
  mem : Memory
  /-- The observation history, oldest first (R9, R112; log 2). -/
  events : List Event
  /-- The values the host will supply to RW, the next one first (R33, R111). -/
  inputs : List Word
  /-- What the host does at the coming boundaries between core steps: nothing, or one command (R142, R77). After
  the last entry the host does nothing more. -/
  hostCmds : List (Option HostCmd)
  deriving DecidableEq, Repr

/-- Why a step of the model would end in a fault of the model's own. There is NO such reason: the spec's three fatal
faults are architectural (they write FR and set RS to FAULTED: R9, R29, R128), so a step that raises one has a next
state, and the spec leaves no other case without an effect (log 10). -/
inductive Fault where
  deriving DecidableEq, Repr

/-- Why the model has no meaning for an instruction. -/
inductive Refusal where
  /-- Raised by an arm of `exec` whose instruction has no meaning yet; safe. No arm raises it: every instruction of
  the opcode table has its meaning. -/
  | notModelled (mnemonic : String)
  deriving DecidableEq, Repr

/-- What one step of the machine answers. -/
abbrev Outcome := Host.Outcome State Fault Refusal

/-- The state after reset: every value is the spec's (R34, R150; the history is emptied, R150), but for the host's own
two lists, which begin empty (DESIGN CHOICE, log 3). -/
def State.reset : State where
  acc := 0
  pc := 0
  reg0 := 0
  reg1 := 0
  ps := 0
  rs := .idle
  fr := FaultRecord.clear
  waiting := false
  mem := []
  events := []
  inputs := []
  hostCmds := []

end Sys2Proof.Machine
end

