-- ==== Sys2Proof/Machine/Ops.lean ====
section
/-! DEFINITION. The named operations over memory and registers, raising a fatal fault, and the advance that ends an
instruction (spec/20_memory.md; spec/40_execution_cycle.md R73 to R76; spec/60_exceptions.md). -/

namespace Sys2Proof.Machine

/-- The byte at a key. -/
def Memory.readByte : Memory → Nat → Byte
  | [], _ => Config.unlistedByte
  | c :: m, k => if c.1 = k then c.2 else Memory.readByte m k

/-- The list without the entries of a key. -/
def Memory.eraseByte (m : Memory) (k : Nat) : Memory := m.filter (fun c => decide (c.1 ≠ k))

/-- The list with an entry put before the first greater key. -/
def Memory.insertByte (k : Nat) (b : Byte) : Memory → Memory
  | [] => [(k, b)]
  | c :: m => if k < c.1 then (k, b) :: c :: m else c :: Memory.insertByte k b m

/-- The memory with one byte changed, in the one form. -/
def Memory.writeByte (m : Memory) (k : Nat) (b : Byte) : Memory :=
  if b = Config.unlistedByte then m.eraseByte k else Memory.insertByte k b (m.eraseByte k)

/-- `MemRead(a, 1)`: the whole word `M[a]` (R9, R48). -/
def Memory.readWord (m : Memory) (a : Nat) : Word :=
  wordOfBytes (m.readByte (4 * a)) (m.readByte (4 * a + 1)) (m.readByte (4 * a + 2)) (m.readByte (4 * a + 3))

/-- `MemWrite(a, 1, v)`: `M[a] <- v` (R9). -/
def Memory.writeWord (m : Memory) (a : Nat) (v : Word) : Memory :=
  (((m.writeByte (4 * a) (byteOf v 0)).writeByte (4 * a + 1) (byteOf v 1)).writeByte (4 * a + 2) (byteOf v 2)).writeByte
    (4 * a + 3) (byteOf v 3)

/-- `M[a]` of a state. -/
def State.word (s : State) (a : Nat) : Word := s.mem.readWord a

/-- The memory is replaced. -/
def State.setMem (s : State) (m : Memory) : State := { s with mem := m }

/-- `ACC <- v`. -/
def State.setAcc (s : State) (v : Word) : State := { s with acc := v }

/-- `PC <- v`. -/
def State.setPc (s : State) (v : Index8) : State := { s with pc := v }

/-- `PS <- v`. -/
def State.setPs (s : State) (v : Index8) : State := { s with ps := v }

/-- `RS <- r`. -/
def State.setRs (s : State) (r : RunState) : State := { s with rs := r }

/-- `FR <- f`. -/
def State.setFr (s : State) (f : FaultRecord) : State := { s with fr := f }

/-- `WAITING <- b`. -/
def State.setWaiting (s : State) (b : Bool) : State := { s with waiting := b }

/-- The input values still to come are replaced. -/
def State.setInputs (s : State) (vs : List Word) : State := { s with inputs := vs }

/-- The host's coming commands are replaced. -/
def State.setHostCmds (s : State) (cs : List (Option HostCmd)) : State := { s with hostCmds := cs }

/-- One event is appended to the history (R9, R112). -/
def State.emit (s : State) (e : Event) : State := { s with events := s.events ++ [e] }

/-- `raise <Fault>(addr, operand)`: FR is written and RS set to FAULTED; the caller performs no later write of the
step (R9, R29). There is no handler and nothing else is saved (R128). -/
def State.raise (s : State) (kind : FaultKind) (addr : Index8) (opd : Int) : State :=
  (s.setFr { kind := kind, addr := addr, operand := wrapW opd }).setRs .faulted

/-- The end of every instruction whose dispatch raised no fault: `PC <- PC + 1`, then the bound check, which leaves
the advanced value in PC and records it (R73, R74, R123). A step runs it from a PC below MEM_SIZE only (R71; log 8). -/
def State.advance (s : State) : State :=
  if s.pc.toNat + 1 < Config.memSize then s.setPc (s.pc + 1)
  else (s.setPc (s.pc + 1)).raise .pcOutOfBounds (s.pc + 1) 0

/-- `StoreHD(a, v)`: the data write of SA and RW, which keeps the hundreds of the old word (R44, R76). -/
def State.storeHD (s : State) (a : Nat) (v : Word) : State :=
  s.setMem (s.mem.writeWord a (wrapW (v.toInt + highDigits (s.word a))))

end Sys2Proof.Machine
end

