-- ==== Sys2Proof/Machine/Operands.lean ====
section
/-! DEFINITION. The operand forms: a data address, checked before any access, and a jump base
(spec/20_memory.md R45, R46; spec/30_encoding.md R61, R62; spec/43_control_transfer.md R104). -/

namespace Sys2Proof.Machine

/-- The effective address of a data-addressing instruction: the operand itself, if it is an address of the
MemoryBank (R45, R46). -/
def dataAddress (opd : Int) : Option Nat :=
  if 0 ≤ opd ∧ opd < (Config.memSize : Int) then some opd.toNat else none

/-- A data-addressing instruction: the bound check, which raises OperandOutOfBounds and accesses nothing, then the
effect at the effective address (R46, R125). -/
def withDataAddress (opd : Int) (s : State) (effect : Nat → State) : State :=
  match dataAddress opd with
  | some a => effect a
  | none => s.raise .operandOutOfBounds s.pc opd

/-- What a jump writes to PC before the unconditional advance (R61, R104). A decoded jump's operand is 0..99; of any
other the low 8 bits are taken (log 9). -/
def jumpBase (opd : Int) : Index8 := BitVec.ofInt 8 opd

end Sys2Proof.Machine
end

