-- ==== Sys2Proof/Machine/Flags.lean ====
section
/-! DEFINITION. The core has no flags (spec/10_state.md R26): the conditions the jumps test are read from ACC itself,
as a signed W-bit value, at the moment of the jump (spec/43_control_transfer.md R101 to R103). -/

namespace Sys2Proof.Machine

/-- JEQ's condition, `ACC = 0` (R101). -/
def accIsZero (s : State) : Bool := decide (s.acc.toInt = 0)

/-- JGT's condition, `ACC > 0` (R102). -/
def accIsPositive (s : State) : Bool := decide (0 < s.acc.toInt)

/-- JLT's condition, `ACC < 0` (R103). -/
def accIsNegative (s : State) : Bool := decide (s.acc.toInt < 0)

end Sys2Proof.Machine
end

