-- ==== Sys2Proof/Machine/Arithmetic.lean ====
section
/-! DEFINITION. AA, MUL, DIV and SUB: the exact result of the two signed values, wrapped at W bits
(spec/42_arithmetic.md R90 to R95). -/

namespace Sys2Proof.Machine

/-- An arithmetic instruction without a fault of its own: `ACC <- wrap_W(f ACC M[opd])` (R90). -/
def accumulate (f : Int → Int → Int) (opd : Int) (s : State) : State :=
  withDataAddress opd s fun a => (s.setAcc (wrapW (f s.acc.toInt (s.word a).toInt))).advance

/-- AA (R91). -/
def execAa (opd : Int) (s : State) : Outcome := .next (accumulate (fun x y => x + y) opd s)

/-- MUL: the low W bits of the exact product, as signed (R92). -/
def execMul (opd : Int) (s : State) : Outcome := .next (accumulate (fun x y => x * y) opd s)

/-- DIV: a zero divisor raises DivisionByZero before any write, else the quotient truncated toward zero (R93, R95). -/
def execDiv (opd : Int) (s : State) : Outcome :=
  .next (withDataAddress opd s fun a =>
    if (s.word a).toInt = 0 then s.raise .divisionByZero s.pc opd
    else (s.setAcc (wrapW (s.acc.toInt.tdiv (s.word a).toInt))).advance)

/-- SUB (R94). -/
def execSub (opd : Int) (s : State) : Outcome := .next (accumulate (fun x y => x - y) opd s)

end Sys2Proof.Machine
end

