-- ==== Sys2Proof/Machine/Control.lean ====
section
/-! DEFINITION. JMP, JEQ, JGT and JLT (spec/43_control_transfer.md R100 to R104): the jump writes PC in dispatch and
the unconditional advance follows, so a taken jump to `k` continues at `k + 1`. -/

namespace Sys2Proof.Machine

/-- A jump: PC is written if the condition holds, and then advanced either way (R104). -/
def jumpIf (taken : Bool) (opd : Int) (s : State) : State :=
  if taken then (s.setPc (jumpBase opd)).advance else s.advance

/-- JMP (R100). -/
def execJmp (opd : Int) (s : State) : Outcome := .next (jumpIf true opd s)

/-- JEQ (R101). -/
def execJeq (opd : Int) (s : State) : Outcome := .next (jumpIf (accIsZero s) opd s)

/-- JGT (R102). -/
def execJgt (opd : Int) (s : State) : Outcome := .next (jumpIf (accIsPositive s) opd s)

/-- JLT (R103). -/
def execJlt (opd : Int) (s : State) : Outcome := .next (jumpIf (accIsNegative s) opd s)

end Sys2Proof.Machine
end

