-- ==== Sys2Proof/Machine/Io.lean ====
section
/-! DEFINITION. PW and RW (spec/44_io.md R110 to R112). -/

namespace Sys2Proof.Machine

/-- PW: `Out(MemRead(opd, 1))`, the whole stored word (R110). -/
def execPw (opd : Int) (s : State) : Outcome :=
  .next (withDataAddress opd s fun a => (s.emit (.output (s.word a))).advance)

/-- RW-issue: `WAITING <- 1` and nothing else; PC stays at the RW (R111). -/
def rwIssue (s : State) : State := s.setWaiting true

/-- RW-complete: the next input value is stored with high-digit preservation, WAITING is cleared and PC advances. With
no value to come the core stays as it is (R111). -/
def rwComplete (a : Nat) (s : State) : State :=
  match s.inputs with
  | [] => s
  | v :: rest => (((s.storeHD a v).setInputs rest).setWaiting false).advance

/-- RW: the issue of a core that does not wait yet, the completion of one that does (R111). -/
def execRw (opd : Int) (s : State) : Outcome :=
  .next (withDataAddress opd s fun a => if s.waiting then rwComplete a s else rwIssue s)

end Sys2Proof.Machine
end

