-- ==== Sys2Proof/Machine/LoadStore.lean ====
section
/-! DEFINITION. LA and SA (spec/41_load_store.md). -/

namespace Sys2Proof.Machine

/-- LA: `ACC <- MemRead(opd, 1)` (R85). -/
def execLa (opd : Int) (s : State) : Outcome :=
  .next (withDataAddress opd s fun a => (s.setAcc (s.word a)).advance)

/-- SA: `StoreHD(opd, ACC)` (R86). -/
def execSa (opd : Int) (s : State) : Outcome :=
  .next (withDataAddress opd s fun a => (s.storeHD a s.acc).advance)

end Sys2Proof.Machine
end

