-- ==== Sys2Proof/Machine/System.lean ====
section
/-! DEFINITION. STOP and the unrecognized opcodes (spec/45_system.md R115, R116). -/

namespace Sys2Proof.Machine

/-- `RS <- STOPPED`, unless the bound check that comes first has ended the run (R75, R115). -/
def stopUnlessFaulted (inBounds : Bool) (s : State) : State := if inBounds then s.setRs .stopped else s

/-- STOP: nothing in dispatch; after the advance and its bound check the run halts. The operand is ignored (R115). -/
def execStop (_opd : Int) (s : State) : Outcome :=
  .next (stopUnlessFaulted (decide (s.pc.toNat + 1 < Config.memSize)) s.advance)

/-- An unrecognized opcode: the report, made before the advance, carries the address, the whole word and the opcode
(R116, R122). The word is packed again from the fields Decode gave (log 11). -/
def execUnrecognized (opcode opd : Int) (s : State) : Outcome :=
  .next (s.emit (.unknownOpcode s.pc (encodePair opcode opd) opcode)).advance

end Sys2Proof.Machine
end

