-- ==== Sys2Proof/Machine/Dispatch.lean ====
section
/-! DEFINITION. The dispatch of an instruction to its meaning, which runs the whole step after the fetch: the operand
bound check, the effect, the advance and the PC bound check (spec/40_execution_cycle.md R73 to R76). -/

namespace Sys2Proof.Machine

def exec (i : Instr) (s : State) : Host.Outcome State Fault Refusal :=
  match i with
  | .la opd => Sys2Proof.Machine.execLa opd s
  | .sa opd => Sys2Proof.Machine.execSa opd s
  | .aa opd => Sys2Proof.Machine.execAa opd s
  | .mul opd => Sys2Proof.Machine.execMul opd s
  | .div opd => Sys2Proof.Machine.execDiv opd s
  | .sub opd => Sys2Proof.Machine.execSub opd s
  | .jmp opd => Sys2Proof.Machine.execJmp opd s
  | .jeq opd => Sys2Proof.Machine.execJeq opd s
  | .jgt opd => Sys2Proof.Machine.execJgt opd s
  | .jlt opd => Sys2Proof.Machine.execJlt opd s
  | .pw opd => Sys2Proof.Machine.execPw opd s
  | .rw opd => Sys2Proof.Machine.execRw opd s
  | .stop opd => Sys2Proof.Machine.execStop opd s
  | .unrecognized opcode opd => Sys2Proof.Machine.execUnrecognized opcode opd s

end Sys2Proof.Machine
end

