-- ==== Sys2Proof/Machine/HostPort.lean ====
section
/-! DEFINITION. The core's host interfaces: reset, load, start, the loader's output contract, the inspection port and
the run result (spec/60_exceptions.md R140 to R142; spec/70_reset_and_hazards.md R150 to R156;
spec/10_state.md R28, R29, R31). -/

namespace Sys2Proof.Machine

/-- The numeric code of `RS` (R28). -/
def RunState.code : RunState → Nat
  | .idle => 0
  | .running => 1
  | .stopped => 2
  | .faulted => 3

/-- The numeric code of `FR.kind` (R29, R121). -/
def FaultKind.code : FaultKind → Nat
  | .none => 0
  | .divisionByZero => 1
  | .pcOutOfBounds => 2
  | .operandOutOfBounds => 3

/-- Reset: every item to its reset value and the history emptied, in any state (R150). What the host has still to do is
the host's, and stays (log 3). -/
def resetCore (s : State) : State := (State.reset.setInputs s.inputs).setHostCmds s.hostCmds

/-- A command that is allowed in IDLE only; elsewhere it has no effect (R142). -/
def whenIdle (s : State) (effect : State) : State := if s.rs = .idle then effect else s

/-- A load write: `M[addr] <- value`, plain (R151). -/
def loadWord (s : State) (a : Nat) (v : Word) : State := s.setMem (s.mem.writeWord a v)

/-- One host command, between two core steps (R142). `start` leaves PC, which holds `PC0` since the reset or the load
(R142, R154; log 4). -/
def applyHostCmd (c : HostCmd) (s : State) : State :=
  match c with
  | .reset => resetCore s
  | .loadWrite a v => whenIdle s (loadWord s a.val v)
  | .loadDone ps pc0 => whenIdle s ((s.setPs (BitVec.ofNat 8 ps.val)).setPc pc0)
  | .start => whenIdle s (s.setRs .running)

/-- The load writes of words at consecutive addresses; loading stops at the capacity (R151). -/
def loadWrites : Nat → List Word → List HostCmd
  | _, [] => []
  | a, w :: ws => if h : a < 128 then .loadWrite ⟨a, h⟩ w :: loadWrites (a + 1) ws else []

/-- `programSize` after a load of `n` lines (R152). -/
def programSize (n : Nat) : Fin 129 := ⟨min n 128, by omega⟩

/-- The loader's output contract: the commands by which a program of (opcode, operand) lines is loaded and started
(R151, R152, R154, R155). -/
def bootCmds (lines : List (Int × Int)) (pc0 : Index8) : List HostCmd :=
  loadWrites 0 (lines.map fun l => encodePair l.1 l.2) ++ [.loadDone (programSize lines.length) pc0, .start]

/-- What the inspection port can be asked for (R31, R140). -/
inductive InspectItem where
  | acc | pc | reg0 | reg1 | ps | rs | frKind | frAddr | frOperand | waiting
  | memory (addr : Fin 128)
  deriving DecidableEq, Repr

/-- The items by their numbers (R31). -/
def inspectItem : Nat → Option InspectItem
  | 0 => some .acc
  | 1 => some .pc
  | 2 => some .reg0
  | 3 => some .reg1
  | 4 => some .ps
  | 5 => some .rs
  | 6 => some .frKind
  | 7 => some .frAddr
  | 8 => some .frOperand
  | 9 => some .waiting
  | _ => none

/-- The inspection port: a read of the state between steps, which changes nothing (R140). -/
def inspect (item : InspectItem) (s : State) : Int :=
  match item with
  | .acc => s.acc.toInt
  | .pc => s.pc.toNat
  | .reg0 => s.reg0.toInt
  | .reg1 => s.reg1.toInt
  | .ps => s.ps.toNat
  | .rs => s.rs.code
  | .frKind => s.fr.kind.code
  | .frAddr => s.fr.addr.toNat
  | .frOperand => s.fr.operand.toInt
  | .waiting => if s.waiting then 1 else 0
  | .memory a => (s.word a.val).toInt

/-- The architectural state, exactly the items of R20: the state of a machine without its history and without what the
host has yet to do. -/
structure ArchState where
  acc : Word
  pc : Index8
  reg0 : Word
  reg1 : Word
  ps : Index8
  rs : RunState
  fr : FaultRecord
  waiting : Bool
  mem : Memory
  deriving DecidableEq, Repr

/-- The architectural state of a machine (R20). -/
def archState (s : State) : ArchState where
  acc := s.acc
  pc := s.pc
  reg0 := s.reg0
  reg1 := s.reg1
  ps := s.ps
  rs := s.rs
  fr := s.fr
  waiting := s.waiting
  mem := s.mem

/-- The termination reason of a run: STOPPED or FAULTED(`FR.kind`) (R78). -/
inductive TerminationReason where
  | stopped
  | faulted (kind : FaultKind)
  deriving DecidableEq, Repr

/-- Why a run has ended, if it has (R78). -/
def terminationReason (s : State) : Option TerminationReason :=
  match s.rs with
  | .stopped => some .stopped
  | .faulted => some (.faulted s.fr.kind)
  | .idle | .running => none

/-- The run result: the termination reason, the final state and the event history (R78), with the fault record the core
presents beside RS (R141). -/
structure RunResult where
  reason : TerminationReason
  record : FaultRecord
  final : ArchState
  history : List Event
  deriving DecidableEq, Repr

/-- The run result of a run, once it has ended (R78, R141). -/
def runResult (s : State) : Option RunResult :=
  (terminationReason s).map fun reason =>
    { reason := reason, record := s.fr, final := archState s, history := s.events }

end Sys2Proof.Machine
end

