-- ==== Sys2Proof/Machine/Cycle.lean ====
section
/-! DEFINITION. The execution cycle: when a step is taken, the pre-fetch guard, the fetch, the completion of a waiting
RW, and the boundaries at which the host acts (spec/40_execution_cycle.md R70 to R77; spec/60_exceptions.md R142). -/

namespace Sys2Proof.Machine

/-- Fetch and decode: the instruction in the whole word `M[PC]` (R72). -/
def fetch (s : State) : Instr := decode (s.word s.pc.toNat)

/-- While WAITING = 1 the only transition is the completion of the pending RW, whose word is still at PC (R70, R111; log 7). -/
def resumeWait (s : State) : Outcome :=
  match fetch s with
  | .rw opd => exec (.rw opd) s
  | _ => .next s

/-- A step with RS = RUNNING and WAITING = 0: the pre-fetch guard, then the instruction (R71, R72, R76). -/
def instructionStep (s : State) : Outcome :=
  if s.pc.toNat < Config.memSize then exec (fetch s) s
  else .next (s.raise .pcOutOfBounds s.pc 0)

/-- The core's own step. Where the spec takes no step (IDLE, STOPPED, FAULTED) the state stays as it is (R70; log 5). -/
def coreStep (s : State) : Outcome :=
  match s.rs with
  | .running => if s.waiting then resumeWait s else instructionStep s
  | .idle | .stopped | .faulted => .next s

/-- One boundary and what follows it: a host command if the host has one here, else a core step (R77, R142; log 3). -/
def machineStep (s : State) : Outcome :=
  match s.hostCmds with
  | [] => coreStep s
  | none :: rest => coreStep (s.setHostCmds rest)
  | some c :: rest => .next (applyHostCmd c (s.setHostCmds rest))

/-- The address a machine made to run at once fetches from: its PC, or 0 where PC is no valid index (log 6). -/
def entryPc (s : State) : Index8 := if s.pc.toNat < Config.memSize then s.pc else Config.pc0

/-- The state running, with a word where it fetches next and no host command before that (log 6). -/
def placeWord (s : State) (w : Word) : State :=
  ((((loadWord s (entryPc s).toNat w).setPc (entryPc s)).setRs .running).setWaiting false).setHostCmds []

end Sys2Proof.Machine
end

