-- ==== Sys2Proof/Machine/Step.lean ====
section
/-! DEFINITION. One step of the machine, and the state in which a given word is the next instruction. -/

namespace Sys2Proof.Machine

/-- One step: a host command at a boundary, or one transition of the core (R70, R76, R77, R142). -/
def step (s : State) : Host.Outcome State Fault Refusal := machineStep s

/-- `s` with the word `w` (its bits from `nbits` on taken as 0) where the next step fetches, and the machine running
(log 6). -/
def State.withFetchWord (s : State) (nbits w : Nat) : State := placeWord s (tableWord nbits w)

end Sys2Proof.Machine
end

