-- ==== Sys2Proof/Safety.lean ====
section
/-! DEFINITION. What counts as an ended, a fault-free and a well-formed machine, and the words in which the statements
say what a step changes and what it leaves: PC, RS and FR after the advance, and the frame of an instruction. -/

namespace Sys2Proof.Machine

/-- A run has ended exactly in STOPPED and FAULTED (R78). -/
abbrev RunEnded (s : State) : Prop := s.rs = .stopped ∨ s.rs = .faulted

/-- A safe machine is one that has raised no fatal fault (R120). -/
abbrev FaultFree (s : State) : Prop := s.rs ≠ .faulted

/-- RW waits only while running, with its word still at PC (R30, R70, R111). -/
abbrev WaitsAtRw (s : State) : Prop :=
  s.waiting = true → s.rs = .running ∧ s.pc.toNat < 128 ∧ (fetch s).opcode = 11

/-- The fault record says what the run state says, and points at what raised it (R29, R121, R123 to R125). -/
abbrev RecordMatches (s : State) : Prop :=
  (s.fr.kind = .none ↔ s.rs ≠ .faulted) ∧
  (s.fr.kind = .none → s.fr.addr = 0 ∧ s.fr.operand = 0) ∧
  (s.fr.kind = .pcOutOfBounds → s.fr.addr = s.pc ∧ 128 ≤ s.pc.toNat ∧ s.fr.operand = 0) ∧
  (s.fr.kind = .divisionByZero →
    s.fr.addr = s.pc ∧ s.pc.toNat < 128 ∧ fetch s = .div s.fr.operand.toInt ∧ s.word s.fr.operand.toNat = 0) ∧
  (s.fr.kind = .operandOutOfBounds →
    s.fr.addr = s.pc ∧ s.pc.toNat < 128 ∧ fetch s = .la s.fr.operand.toInt ∧ s.fr.operand.toInt < 0)

/-- The invariant of the machine: what the host's commands and the core's steps keep, from every state that has it
(R22, R24, R27, R29, R30, R70, R115). -/
abbrev Inv (s : State) : Prop :=
  s.mem.wf ∧ s.ps.toNat ≤ 128 ∧ (s.reg0 = 0 ∧ s.reg1 = 0) ∧ WaitsAtRw s ∧ RecordMatches s ∧
  (s.rs = .stopped → 1 ≤ s.pc.toNat ∧ s.pc.toNat < 128)

/-- PC, RS and FR of `t` as the advance from `base` leaves those of `s`: one on, or the bound fault at 128
(R73, R74). -/
abbrev AdvancedFrom (base : Int) (s t : State) : Prop :=
  (t.pc.toNat : Int) = base + 1 ∧
  (base + 1 < 128 → t.rs = s.rs ∧ t.fr = s.fr) ∧
  (128 ≤ base + 1 → t.rs = .faulted ∧ t.fr = { kind := .pcOutOfBounds, addr := 128, operand := 0 })

/-- Every byte of memory reads as before. -/
abbrev SameMemory (s t : State) : Prop := ∀ k, t.mem.readByte k = s.mem.readByte k

/-- Every byte of memory outside the word at address `a` reads as before. -/
abbrev SameMemoryBut (a : Nat) (s t : State) : Prop :=
  ∀ k, k < 4 * a ∨ 4 * a + 4 ≤ k → t.mem.readByte k = s.mem.readByte k

/-- The registers no instruction writes, and the host's commands, are as before (R22, R27). -/
abbrev SameInert (s t : State) : Prop :=
  t.reg0 = s.reg0 ∧ t.reg1 = s.reg1 ∧ t.ps = s.ps ∧ t.hostCmds = s.hostCmds

/-- The history, the coming inputs and WAITING are as before. -/
abbrev SameIo (s t : State) : Prop := t.events = s.events ∧ t.inputs = s.inputs ∧ t.waiting = s.waiting

/-- The fatal fault of a step that raised it in dispatch: FR and RS are written and nothing else (R124, R125, R127). -/
abbrev FaultedInDispatch (kind : FaultKind) (opd : Int) (s t : State) : Prop :=
  t.rs = .faulted ∧ t.fr.kind = kind ∧ t.fr.addr = s.pc ∧ t.fr.operand.toInt = opd ∧
  t.acc = s.acc ∧ t.pc = s.pc ∧ SameMemory s t ∧ SameInert s t ∧ SameIo s t

/-- The next step of the core is an instruction: the host does nothing at this boundary, RS = RUNNING, WAITING = 0 and
PC is a valid index (R70, R71). -/
abbrev ReadyToFetch (s : State) : Prop :=
  s.hostCmds = [] ∧ s.rs = .running ∧ s.waiting = false ∧ s.pc.toNat < 128

/-- The instruction at PC is a jump that is taken (R100 to R103). -/
def takesJump (s : State) : Bool :=
  match fetch s with
  | .jmp _ => true
  | .jeq _ => decide (s.acc.toInt = 0)
  | .jgt _ => decide (0 < s.acc.toInt)
  | .jlt _ => decide (s.acc.toInt < 0)
  | .la _ | .sa _ | .aa _ | .mul _ | .div _ | .sub _ | .pw _ | .rw _ | .stop _ | .unrecognized _ _ => false

end Sys2Proof.Machine
end

