-- ==== Sys2Proof/Certificates/Slice0/Obligations.lean ====
section
/-! DEFINITION. The statements for the provers, from the numbered rules of spec/. OBLIGATIONS.json lists them. -/

open Sys2Proof Sys2Proof.Machine

-- Encoding --------------------------------------------------------------------------------------------------------

/-- R57, R58, R61: the decoder gives back every well-formed instruction the encoder packed, as a word and as bytes (that a
word is held as four bytes is log 1, the model's choice). -/
def Obligations.DecodeAfterEncode : Prop :=
  ∀ i : Instr, i.wf = true →
    decode (encode i) = i ∧ ∀ rest, decodeBytes (encodeBytes i ++ rest) = .ok (i, rest)

/-- R57, R59: no bit of a word is lost by decoding: the encoder gives back every word, recognized or not. -/
def Obligations.EncodeAfterDecode : Prop := ∀ w : Word, encode (decode w) = w

/-- R57, R61, and 95_test_vectors.md 2.1, 2.2 (602), W3 (602) and P2 (1020): words the spec writes out decode to the
instructions it gives them. -/
def Obligations.SpecWordsDecode : Prop :=
  decode (wrapW 5) = .la 5 ∧ decode (wrapW (-5)) = .la (-5) ∧ decode (wrapW (-99)) = .la (-99) ∧
  decode (wrapW 205) = .aa 5 ∧ decode (wrapW 602) = .jmp 2 ∧ decode (wrapW 1020) = .pw 20 ∧
  decode (wrapW 1237) = .stop 37 ∧ decode (wrapW (-100)) = .unrecognized (-1) 0 ∧
  decode (wrapW 2147483647) = .unrecognized 21474836 47 ∧
  decode (wrapW (-2147483648)) = .unrecognized (-21474836) (-48)

/-- R59, the table for W = 32: which opcode and operand each word has. -/
def Obligations.DecodedDigitRanges : Prop :=
  ∀ w : Word,
    (∀ k : Int, 0 ≤ k → k ≤ 12 → 100 * k ≤ w.toInt → w.toInt ≤ 100 * k + 99 →
      decodeFields w = (k, w.toInt - 100 * k)) ∧
    (-99 ≤ w.toInt → w.toInt ≤ -1 → decodeFields w = (0, w.toInt)) ∧
    (1300 ≤ w.toInt → 13 ≤ (decodeFields w).1 ∧ (decodeFields w).1 ≤ 21474836 ∧
      0 ≤ (decodeFields w).2 ∧ (decodeFields w).2 ≤ 99) ∧
    (w.toInt ≤ -100 → -21474836 ≤ (decodeFields w).1 ∧ (decodeFields w).1 ≤ -1 ∧
      -99 ≤ (decodeFields w).2 ∧ (decodeFields w).2 ≤ 0)

/-- R60: Encode and Decode are inverse on the pairs callers must respect; outside them pairs collide; a datum is the
line `0 v`. -/
def Obligations.EncodableForCallersOnly : Prop :=
  (∀ opcode opd : Int, 0 ≤ opcode → opcode ≤ 12 → 0 ≤ opd → opd ≤ 99 →
    decodeFields (encodePair opcode opd) = (opcode, opd)) ∧
  (∀ opcode opd : Int, encodePair opcode (opd + 100) = encodePair (opcode + 1) opd) ∧
  encodePair 1 105 = encodePair 2 5 ∧ decode (encodePair 1 105) = .aa 5 ∧
  (∀ v : Word, encodePair 0 v.toInt = v)

-- Instructions ----------------------------------------------------------------------------------------------------

/-- R85: LA loads the whole word at its operand; with a negative operand it raises OperandOutOfBounds and ACC is
unchanged; no other instruction raises that fault. -/
def Obligations.LoadAccumulator : Prop :=
  (∀ w : Word, -99 ≤ w.toInt → w.toInt ≤ 99 → decode w = .la w.toInt) ∧
  (∀ (s : State) (opd : Int), s.pc.toNat < 128 → 0 ≤ opd → opd ≤ 99 →
    ∃ t, exec (.la opd) s = .next t ∧ t.acc = s.word opd.toNat ∧ AdvancedFrom s.pc.toNat s t ∧
      SameMemory s t ∧ SameInert s t ∧ SameIo s t) ∧
  (∀ (s : State) (opd : Int), s.pc.toNat < 128 → -99 ≤ opd → opd < 0 →
    ∃ t, exec (.la opd) s = .next t ∧ FaultedInDispatch .operandOutOfBounds opd s t) ∧
  (∀ (i : Instr) (s t : State), i.wf = true → exec i s = .next t → t.fr.kind = .operandOutOfBounds →
    s.fr.kind = .operandOutOfBounds ∨ i.opcode = 0)

/-- R86: SA adds ACC to the hundreds of the old word at its operand, and writes nothing else. -/
def Obligations.StoreAccumulator : Prop :=
  (∀ w : Word, 100 ≤ w.toInt → w.toInt ≤ 199 → decode w = .sa (w.toInt - 100)) ∧
  (∀ (s : State) (opd : Int), s.pc.toNat < 128 → 0 ≤ opd → opd ≤ 99 →
    ∃ (a : Nat) (t : State), dataAddress opd = some a ∧ (a : Int) = opd ∧ exec (.sa opd) s = .next t ∧
      (t.word a).toInt = (s.acc.toInt + (s.word a).toInt.tdiv 100 * 100).bmod (2 ^ 32) ∧
      SameMemoryBut a s t ∧ t.acc = s.acc ∧ AdvancedFrom s.pc.toNat s t ∧ SameInert s t ∧ SameIo s t)

/-- What an arithmetic instruction with opcode `op` does: ACC becomes the exact result, wrapped (R90). -/
def AccumulatesBy (mk : Int → Instr) (op : Int) (f : Int → Int → Int) : Prop :=
  (∀ w : Word, 100 * op ≤ w.toInt → w.toInt ≤ 100 * op + 99 → decode w = mk (w.toInt - 100 * op)) ∧
  (∀ (s : State) (opd : Int), s.pc.toNat < 128 → 0 ≤ opd → opd ≤ 99 →
    ∃ t, exec (mk opd) s = .next t ∧ t.acc.toInt = (f s.acc.toInt (s.word opd.toNat).toInt).bmod (2 ^ 32) ∧
      AdvancedFrom s.pc.toNat s t ∧ SameMemory s t ∧ SameInert s t ∧ SameIo s t)

/-- R91, R92, R94: AA, MUL and SUB wrap the exact sum, product and difference, and raise nothing of their own. -/
def Obligations.WrappingArithmetic : Prop :=
  AccumulatesBy .aa 2 (fun x y => x + y) ∧ AccumulatesBy .mul 3 (fun x y => x * y) ∧
  AccumulatesBy .sub 5 (fun x y => x - y)

/-- R93: DIV gives the truncated quotient, wrapped, and raises DivisionByZero exactly when the word at its operand
is 0. -/
def Obligations.DivideAccumulator : Prop :=
  (∀ w : Word, 400 ≤ w.toInt → w.toInt ≤ 499 → decode w = .div (w.toInt - 400)) ∧
  (∀ (s : State) (opd : Int), s.pc.toNat < 128 → 0 ≤ opd → opd ≤ 99 → (s.word opd.toNat).toInt ≠ 0 →
    ∃ t, exec (.div opd) s = .next t ∧
      t.acc.toInt = (s.acc.toInt.tdiv (s.word opd.toNat).toInt).bmod (2 ^ 32) ∧
      AdvancedFrom s.pc.toNat s t ∧ SameMemory s t ∧ SameInert s t ∧ SameIo s t) ∧
  (∀ (s : State) (opd : Int), s.pc.toNat < 128 → 0 ≤ opd → opd ≤ 99 → (s.word opd.toNat).toInt = 0 →
    ∃ t, exec (.div opd) s = .next t ∧ FaultedInDispatch .divisionByZero opd s t)

/-- R95: the quotient of DIV is the one whose remainder is smaller than the divisor and has the dividend's sign, but for
-2^31 by -1, which gives -2^31; a zero divisor is a fault for every dividend. -/
def Obligations.DivisionTruncatesTowardZero : Prop :=
  ∀ (s : State) (opd : Int), s.pc.toNat < 128 → 0 ≤ opd → opd ≤ 99 →
    ∃ t, exec (.div opd) s = .next t ∧
      ((s.word opd.toNat).toInt = 0 → t.rs = .faulted ∧ t.fr.kind = .divisionByZero ∧ t.acc = s.acc) ∧
      (s.acc.toInt = -2147483648 → (s.word opd.toNat).toInt = -1 → t.acc.toInt = -2147483648) ∧
      ((s.word opd.toNat).toInt ≠ 0 → ¬ (s.acc.toInt = -2147483648 ∧ (s.word opd.toNat).toInt = -1) →
        ∃ r : Int, s.acc.toInt = (s.word opd.toNat).toInt * t.acc.toInt + r ∧
          r.natAbs < (s.word opd.toNat).toInt.natAbs ∧ (0 ≤ s.acc.toInt → 0 ≤ r) ∧ (s.acc.toInt ≤ 0 → r ≤ 0))

/-- R100: JMP continues one past its operand. -/
def Obligations.JumpContinuesOnePast : Prop :=
  (∀ w : Word, 600 ≤ w.toInt → w.toInt ≤ 699 → decode w = .jmp (w.toInt - 600)) ∧
  (∀ (s : State) (opd : Int), s.pc.toNat < 128 → 0 ≤ opd → opd ≤ 99 →
    ∃ t, exec (.jmp opd) s = .next t ∧ AdvancedFrom opd s t ∧ t.acc = s.acc ∧
      SameMemory s t ∧ SameInert s t ∧ SameIo s t)

/-- What a conditional jump with opcode `op` does: it tests ACC as a signed value and advances either way. -/
def JumpsIf (mk : Int → Instr) (op : Int) (cond : Int → Prop) : Prop :=
  (∀ w : Word, 100 * op ≤ w.toInt → w.toInt ≤ 100 * op + 99 → decode w = mk (w.toInt - 100 * op)) ∧
  (∀ (s : State) (opd : Int), s.pc.toNat < 128 → 0 ≤ opd → opd ≤ 99 →
    ∃ t, exec (mk opd) s = .next t ∧ (cond s.acc.toInt → AdvancedFrom opd s t) ∧
      (¬ cond s.acc.toInt → AdvancedFrom s.pc.toNat s t) ∧ t.acc = s.acc ∧
      SameMemory s t ∧ SameInert s t ∧ SameIo s t)

/-- R101, R102, R103: JEQ, JGT and JLT are taken when ACC is 0, positive, negative. -/
def Obligations.ConditionalJumps : Prop :=
  JumpsIf .jeq 7 (fun v => v = 0) ∧ JumpsIf .jgt 8 (fun v => 0 < v) ∧ JumpsIf .jlt 9 (fun v => v < 0)

/-- R104: a taken jump lands at 1..100 and never ends the run; a jump that is not taken goes on at the next address,
and is the only one that can meet the bound check. -/
def Obligations.JumpTargetRange : Prop :=
  ∀ s : State, ReadyToFetch s → 6 ≤ (fetch s).opcode → (fetch s).opcode ≤ 9 →
    ∃ t, step s = .next t ∧
      (takesJump s = true → (t.pc.toNat : Int) = (fetch s).operand + 1 ∧ 1 ≤ t.pc.toNat ∧ t.pc.toNat ≤ 100 ∧
        t.rs = .running) ∧
      (takesJump s = false → t.pc.toNat = s.pc.toNat + 1 ∧ (t.rs = .faulted ↔ s.pc.toNat = 127))

/-- R110: PW emits the whole stored word as one event and mutates no other state but PC's advance. -/
def Obligations.PrintWord : Prop :=
  (∀ w : Word, 1000 ≤ w.toInt → w.toInt ≤ 1099 → decode w = .pw (w.toInt - 1000)) ∧
  (∀ (s : State) (opd : Int), s.pc.toNat < 128 → 0 ≤ opd → opd ≤ 99 →
    ∃ t, exec (.pw opd) s = .next t ∧ t.events = s.events ++ [.output (s.word opd.toNat)] ∧
      AdvancedFrom s.pc.toNat s t ∧ t.acc = s.acc ∧ SameMemory s t ∧ SameInert s t ∧
      t.inputs = s.inputs ∧ t.waiting = s.waiting)

/-- R111: RW-issue sets WAITING and changes nothing else; RW-complete stores the next input with high-digit
preservation, clears WAITING and advances; with no input the core stays in the wait. -/
def Obligations.ReadWord : Prop :=
  (∀ w : Word, 1100 ≤ w.toInt → w.toInt ≤ 1199 → decode w = .rw (w.toInt - 1100)) ∧
  (∀ (s : State) (opd : Int), 0 ≤ opd → opd ≤ 99 → s.waiting = false →
    exec (.rw opd) s = .next { s with waiting := true }) ∧
  (∀ (s : State) (opd : Int), 0 ≤ opd → opd ≤ 99 → s.waiting = true → s.inputs = [] →
    exec (.rw opd) s = .next s) ∧
  (∀ (s : State) (opd : Int) (v : Word) (rest : List Word), s.pc.toNat < 128 → 0 ≤ opd → opd ≤ 99 →
    s.waiting = true → s.inputs = v :: rest →
    ∃ (a : Nat) (t : State), dataAddress opd = some a ∧ (a : Int) = opd ∧ exec (.rw opd) s = .next t ∧
      (t.word a).toInt = (v.toInt + (s.word a).toInt.tdiv 100 * 100).bmod (2 ^ 32) ∧
      SameMemoryBut a s t ∧ t.waiting = false ∧ t.inputs = rest ∧ AdvancedFrom s.pc.toNat s t ∧
      t.acc = s.acc ∧ t.events = s.events ∧ SameInert s t)

/-- R115: STOP changes only PC and RS, whatever its operand; at address 127 the bound check comes first. -/
def Obligations.StopHalts : Prop :=
  (∀ w : Word, 1200 ≤ w.toInt → w.toInt ≤ 1299 → decode w = .stop (w.toInt - 1200)) ∧
  (∀ (s : State) (opd : Int), s.pc.toNat < 128 → 0 ≤ opd → opd ≤ 99 →
    ∃ t, exec (.stop opd) s = .next t ∧ t.pc.toNat = s.pc.toNat + 1 ∧
      (s.pc.toNat < 127 → t.rs = .stopped ∧ t.fr = s.fr) ∧
      (s.pc.toNat = 127 → t.rs = .faulted ∧ t.fr = { kind := .pcOutOfBounds, addr := 128, operand := 0 }) ∧
      t.acc = s.acc ∧ SameMemory s t ∧ SameInert s t ∧ SameIo s t)

/-- R116, R122: a word outside -99..1299 is reported with its address, the word and the opcode, and stepped over. -/
def Obligations.UnrecognizedIsReported : Prop :=
  ∀ w : Word, 1300 ≤ w.toInt ∨ w.toInt ≤ -100 →
    decode w = .unrecognized (w.toInt.tdiv 100) (w.toInt.tmod 100) ∧
    ∀ s : State, s.pc.toNat < 128 →
      ∃ t, exec (.unrecognized (w.toInt.tdiv 100) (w.toInt.tmod 100)) s = .next t ∧
        t.events = s.events ++ [.unknownOpcode s.pc w (w.toInt.tdiv 100)] ∧ AdvancedFrom s.pc.toNat s t ∧
        t.acc = s.acc ∧ SameMemory s t ∧ SameInert s t ∧ t.inputs = s.inputs ∧ t.waiting = s.waiting

-- The execution cycle ---------------------------------------------------------------------------------------------

/-- R72, R76: a step runs the instruction that the word at PC decodes to; a boundary at which the host does nothing only
uses up its entry (the host's list is log 3, the model's choice). -/
def Obligations.StepRunsDecodedInstruction : Prop :=
  (∀ s : State, ReadyToFetch s → step s = exec (decode (s.mem.readWord s.pc.toNat)) s) ∧
  (∀ (s : State) (opd : Int), s.hostCmds = [] → s.rs = .running → s.waiting = true → s.pc.toNat < 128 →
    decode (s.mem.readWord s.pc.toNat) = .rw opd → step s = exec (.rw opd) s) ∧
  (∀ (s : State) (rest : List (Option HostCmd)), s.hostCmds = none :: rest →
    ∃ t, step { s with hostCmds := [] } = .next t ∧ step s = .next { t with hostCmds := rest })

/-- R70: no step is taken in IDLE, STOPPED and FAULTED, and while WAITING = 1 nothing happens without an input. That step
then answers the same state, also where WAITING is 1 and PC holds no RW, is log 5, the model's choice. -/
def Obligations.NoStepTaken : Prop :=
  (∀ s : State, s.hostCmds = [] → s.rs ≠ .running → step s = .next s) ∧
  (∀ s : State, s.hostCmds = [] → s.rs = .running → s.waiting = true →
    ∃ t, step s = .next t ∧
      (t = s ∨ ∃ (opd : Int) (v : Word), fetch s = .rw opd ∧ s.inputs = v :: t.inputs ∧ t.waiting = false) ∧
      (s.inputs = [] → t = s))

/-- R71: a step that begins with PC past the bank fetches nothing and changes RS and FR only. -/
def Obligations.PreFetchGuard : Prop :=
  ∀ s : State, s.hostCmds = [] → s.rs = .running → s.waiting = false → 128 ≤ s.pc.toNat →
    step s = .next { s with rs := .faulted, fr := { kind := .pcOutOfBounds, addr := s.pc, operand := 0 } }

/-- R74, R75, R123, R126: the step at the last address ends the run with PC = 128 unless it faulted in dispatch, took a
jump, or is an RW that waits; it never stops normally. -/
def Obligations.LastAddressNeverStops : Prop :=
  ∀ s : State, ReadyToFetch s → s.pc.toNat = 127 →
    ∃ t, step s = .next t ∧
      ((t.pc.toNat = 128 ∧ t.rs = .faulted ∧ t.fr = { kind := .pcOutOfBounds, addr := 128, operand := 0 } ∧
          takesJump s = false) ∨
        (t.pc.toNat = 127 ∧ t.rs = .faulted ∧ t.fr.addr = 127 ∧
          (t.fr.kind = .divisionByZero ∨ t.fr.kind = .operandOutOfBounds)) ∨
        (takesJump s = true ∧ t.rs = .running ∧ 1 ≤ t.pc.toNat ∧ t.pc.toNat ≤ 100) ∨
        ((fetch s).opcode = 11 ∧ t = { s with waiting := true }))

/-- R124, R125, R127: a step that raises a fault in dispatch leaves every item but RS and FR as it was. -/
def Obligations.DispatchFaultsArePrecise : Prop :=
  ∀ s t : State, s.hostCmds = [] → s.rs = .running → step s = .next t → t.rs = .faulted →
    t.fr.kind ≠ .pcOutOfBounds →
    t = { s with rs := .faulted, fr := { kind := t.fr.kind, addr := s.pc, operand := t.fr.operand } } ∧
    ((t.fr.kind = .divisionByZero ∧ fetch s = .div t.fr.operand.toInt ∧ s.word t.fr.operand.toNat = 0) ∨
      (t.fr.kind = .operandOutOfBounds ∧ fetch s = .la t.fr.operand.toInt ∧ t.fr.operand.toInt < 0))

/-- R24: a core step from a valid PC leaves it in 0..128, and only the bound fault leaves it at 128. -/
def Obligations.PcStaysValidWhileRunning : Prop :=
  ∀ s t : State, s.hostCmds = [] → s.rs = .running → s.pc.toNat < 128 → step s = .next t →
    t.pc.toNat ≤ 128 ∧ (t.rs = .running ∨ t.rs = .stopped → t.pc.toNat < 128) ∧
    (t.pc.toNat = 128 → t.rs = .faulted ∧ t.fr = { kind := .pcOutOfBounds, addr := 128, operand := 0 })

/-- Every step of the machine has a next state: the model stops nowhere. That the states in which no step is taken answer
themselves is log 5, the model's choice, and that a fatal fault is a next state is log 10, the model's reading. -/
def Obligations.EveryStepHasNextState : Prop := ∀ s : State, ∃ t, step s = .next t

-- Whole-machine rules ---------------------------------------------------------------------------------------------

/-- R80: no step of the core writes REG[0], REG[1] or PS, and none reads them: changing them before the step and after
it is the same. -/
def Obligations.ReservedRegistersAreInert : Prop :=
  (∀ s t : State, s.hostCmds = [] → step s = .next t → t.reg0 = s.reg0 ∧ t.reg1 = s.reg1 ∧ t.ps = s.ps) ∧
  (∀ (s : State) (x y : Word) (p : Index8), s.hostCmds = [] →
    ∃ t, step s = .next t ∧
      step { s with reg0 := x, reg1 := y, ps := p } = .next { t with reg0 := x, reg1 := y, ps := p })

/-- R21, R44: of all instructions only SA and RW change memory, and only LA, AA, MUL, DIV and SUB change ACC. -/
def Obligations.WritersOfMemoryAndAccumulator : Prop :=
  ∀ (i : Instr) (s t : State), exec i s = .next t →
    (i.opcode ≠ 1 → i.opcode ≠ 11 → t.mem = s.mem) ∧
    (i.opcode ≠ 0 → i.opcode ≠ 2 → i.opcode ≠ 3 → i.opcode ≠ 4 → i.opcode ≠ 5 → t.acc = s.acc)

/-- R47: no step of the core changes a word at 100..127, and only LA raises OperandOutOfBounds. -/
def Obligations.DataAddressesBelowHundred : Prop :=
  ∀ s t : State, s.hostCmds = [] → step s = .next t →
    (∀ a : Nat, 100 ≤ a → a < 128 → t.word a = s.word a) ∧
    (t.fr.kind = .operandOutOfBounds → s.fr.kind ≠ .operandOutOfBounds →
      ∃ opd : Int, fetch s = .la opd ∧ -99 ≤ opd ∧ opd ≤ -1)

/-- R54: a store by SA to the very next address is seen by the very next fetch. -/
def Obligations.StoreSeenByNextFetch : Prop :=
  ∀ s : State, ReadyToFetch s → s.pc.toNat < 99 → fetch s = .sa (s.pc.toNat + 1 : Nat) →
    ∃ t, step s = .next t ∧
      step t = exec (decode (wrapW (s.acc.toInt + (s.word (s.pc.toNat + 1)).toInt.tdiv 100 * 100))) t

/-- R44, R161: storing a two-digit ACC over a code word keeps that word's opcode and replaces its operand. -/
def Obligations.StoreKeepsOpcodeDigits : Prop :=
  ∀ (s : State) (opd : Int), s.pc.toNat < 128 → 0 ≤ opd → opd ≤ 99 → 0 ≤ s.acc.toInt → s.acc.toInt ≤ 99 →
    0 ≤ (s.word opd.toNat).toInt → (s.word opd.toNat).toInt < 2147483600 →
    ∃ t, exec (.sa opd) s = .next t ∧
      decodeFields (t.word opd.toNat) = ((decodeFields (s.word opd.toNat)).1, s.acc.toInt)

/-- R110, R112, R116: a core step adds to the history exactly the output of a PW or the report of an unrecognized word,
at its end, and takes an input exactly when a waiting RW completes. -/
def Obligations.HistoryGrowsInProgramOrder : Prop :=
  ∀ s t : State, s.hostCmds = [] → s.rs = .running → s.pc.toNat < 128 → step s = .next t →
    (s.waiting = false → ∀ opd, fetch s = .pw opd → t.events = s.events ++ [.output (s.word opd.toNat)]) ∧
    (s.waiting = false → ∀ opcode opd, fetch s = .unrecognized opcode opd →
      t.events = s.events ++ [.unknownOpcode s.pc (s.word s.pc.toNat) opcode]) ∧
    ((s.waiting = true ∨ ((fetch s).opcode ≠ 10 ∧ 0 ≤ (fetch s).opcode ∧ (fetch s).opcode ≤ 12)) →
      t.events = s.events) ∧
    (s.waiting = false → t.inputs = s.inputs) ∧
    (s.waiting = true → ∀ opd v rest, fetch s = .rw opd → s.inputs = v :: rest → t.inputs = rest)

/-- Log 1 (the model's choice of form): two memories in the one form that give every word the same value are the same
list. -/
def Obligations.CanonicalMemoryIsUnique : Prop :=
  ∀ m n : Memory, m.wf → n.wf → (∀ a : Nat, a < 128 → m.readWord a = n.readWord a) → m = n

/-- R22, R24, R27, R29, R30, R70, R115: every step, of the core or of the host, keeps the invariant. -/
def Obligations.StepKeepsInvariant : Prop :=
  ∀ s t : State, Inv s → step s = .next t → Inv t

/-- The state after reset has the invariant. -/
def Obligations.ResetHasInvariant : Prop := Inv State.reset

-- Reset, load, start, inspection ----------------------------------------------------------------------------------

/-- R34: the reset value of every piece of state. -/
def Obligations.ResetValues : Prop :=
  State.reset.acc.toInt = 0 ∧ State.reset.pc.toNat = 0 ∧ State.reset.reg0.toInt = 0 ∧ State.reset.reg1.toInt = 0 ∧
  State.reset.ps.toNat = 0 ∧ (∀ a : Nat, a < 128 → (State.reset.word a).toInt = 0) ∧ State.reset.rs = .idle ∧
  State.reset.fr = { kind := .none, addr := 0, operand := 0 } ∧ State.reset.waiting = false

/-- R150: the reset command, in any state, gives every item its reset value and empties the history, and nothing else
leaves STOPPED or FAULTED. That the rest of the host's list stays after it is log 3, the model's choice. -/
def Obligations.ResetCommandInAnyState : Prop :=
  (∀ s t : State, RunEnded s → step s = .next t → t.rs ≠ s.rs → ∃ rest, s.hostCmds = some .reset :: rest) ∧
  ∀ (s : State) (rest : List (Option HostCmd)), s.hostCmds = some .reset :: rest →
    ∃ t, step s = .next t ∧ t.acc = 0 ∧ t.pc = 0 ∧ t.reg0 = 0 ∧ t.reg1 = 0 ∧ t.ps = 0 ∧
      (∀ a : Nat, a < 128 → t.word a = 0) ∧ t.rs = .idle ∧
      t.fr = { kind := .none, addr := 0, operand := 0 } ∧ t.waiting = false ∧ t.events = [] ∧ t.hostCmds = rest

/-- R142, R151: in IDLE a load write sets the word plainly and changes nothing else; outside IDLE a load or start
command has no effect. That a command uses up a boundary with no core step, and that the rest of the host's list stays,
is log 3, the model's choice. -/
def Obligations.LoadOnlyInIdle : Prop :=
  (∀ (s : State) (a : Fin 128) (v : Word) (rest : List (Option HostCmd)),
    s.hostCmds = some (.loadWrite a v) :: rest → s.rs = .idle →
    ∃ t, step s = .next t ∧ t.word a.val = v ∧ SameMemoryBut a.val s t ∧
      t = { s with mem := t.mem, hostCmds := rest }) ∧
  (∀ (s : State) (c : HostCmd) (rest : List (Option HostCmd)),
    s.hostCmds = some c :: rest → c ≠ .reset → s.rs ≠ .idle → step s = .next { s with hostCmds := rest })

/-- R142, R154: load done latches PS and PC0, start makes the core run from there, and a PC0 past the bank faults at the
first step, for a host that does nothing after start. That start leaves PC is log 4 (deduced), and the command list, one
step per command, is log 3 (the model's choice). -/
def Obligations.StartRunsFromLoadedPc : Prop :=
  ∀ (s : State) (ps : Fin 129) (pc0 : Index8), s.hostCmds = [some (.loadDone ps pc0), some .start] → s.rs = .idle →
    ∃ t u : State, step s = .next t ∧ step t = .next u ∧ u.ps.toNat = ps.val ∧
      u = { s with ps := u.ps, pc := pc0, rs := .running, hostCmds := [] } ∧
      (s.waiting = false → pc0.toNat < 128 → step u = exec (decode (s.word pc0.toNat)) u) ∧
      (s.waiting = false → 128 ≤ pc0.toNat →
        step u = .next { u with rs := .faulted, fr := { kind := .pcOutOfBounds, addr := pc0, operand := 0 } })

/-- R151, R152, R155: reset, a load of any program of lines, and start leave exactly the encoded words at the first
addresses, `programSize` words, and the core running from PC0. That a program is loaded by `bootCmds`, one step per
command, from host lists that are empty at reset is logs 3 and 6, the model's choice. -/
def Obligations.LoaderContract : Prop :=
  ∀ (lines : List (Int × Int)) (pc0 : Index8),
    ∃ t, Host.Core.run core (bootCmds lines pc0).length
          { State.reset with hostCmds := (bootCmds lines pc0).map some } = .next t ∧
      (∀ a : Nat, a < 128 → t.word a = match lines[a]? with
        | some l => encodePair l.1 l.2
        | none => 0) ∧
      t = { State.reset with mem := t.mem, ps := BitVec.ofNat 8 (min lines.length 128), pc := pc0, rs := .running }

/-- R30, R31, R140: every item of the inspection port reads its register, every word reads whole, and RW-issue shows
the state before the RW but for WAITING. -/
def Obligations.InspectionShowsState : Prop :=
  (∀ s : State, (List.range 10).filterMap (fun n => (inspectItem n).map fun item => inspect item s) =
    [s.acc.toInt, (s.pc.toNat : Int), s.reg0.toInt, s.reg1.toInt, (s.ps.toNat : Int), (s.rs.code : Int),
      (s.fr.kind.code : Int), (s.fr.addr.toNat : Int), s.fr.operand.toInt, if s.waiting then 1 else 0]) ∧
  (∀ (s : State) (a : Fin 128), inspect (.memory a) s = (s.word a.val).toInt) ∧
  (∀ s t : State, ReadyToFetch s → (fetch s).opcode = 11 → step s = .next t →
    inspect .waiting t = 1 ∧ ∀ item : InspectItem, item ≠ .waiting → inspect item t = inspect item s)

/-- R78, R141: a run presents its result exactly when it has ended; the result is the termination reason, RS and FR,
every item of the final state, and the whole event history, which State holds (log 2, the model's reading). -/
def Obligations.RunResultOfEndedRuns : Prop :=
  ∀ s : State,
    (RunEnded s → ∃ r, runResult s = some r ∧
      (s.rs = .stopped → r.reason = .stopped) ∧ (s.rs = .faulted → r.reason = .faulted s.fr.kind) ∧
      r.record = s.fr ∧ r.history = s.events ∧ r.final.acc = s.acc ∧ r.final.pc = s.pc ∧ r.final.reg0 = s.reg0 ∧
      r.final.reg1 = s.reg1 ∧ r.final.ps = s.ps ∧ r.final.rs = s.rs ∧ r.final.fr = s.fr ∧
      r.final.waiting = s.waiting ∧ (∀ a : Nat, a < 128 → r.final.mem.readWord a = s.word a)) ∧
    (¬ RunEnded s → runResult s = none)

-- Runs ------------------------------------------------------------------------------------------------------------

/-- R129, R156: STOPPED and FAULTED are left only by reset: without one, any number of steps, load and start commands
among them, leaves the whole state as it is. That an ended core's step answers the same state is log 5, and that each
step uses up one entry of the host's list is log 3, both the model's choice. -/
def Obligations.EndedRunIsImmutable : Prop :=
  ∀ (k : Nat) (s : State), RunEnded s → some HostCmd.reset ∉ s.hostCmds →
    Host.Core.run core k s = .next { s with hostCmds := s.hostCmds.drop k }

/-- R111, R137: an RW that the host never answers waits for ever. That a waiting core's step answers the same state, here
also where WAITING is 1 and PC holds no RW, is log 5, the model's choice. -/
def Obligations.UnansweredReadWaitsForever : Prop :=
  ∀ (k : Nat) (s : State), s.hostCmds = [] → s.rs = .running → s.waiting = true → s.inputs = [] →
    Host.Core.run core k s = .next s

/-- R79, R100: a jump whose operand is the address before its own executes itself for ever. -/
def Obligations.JumpToItselfLoopsForever : Prop :=
  ∀ (k : Nat) (s : State), ReadyToFetch s → fetch s = .jmp ((s.pc.toNat : Int) - 1) → 1 ≤ s.pc.toNat →
    Host.Core.run core k s = .next s

/-- After R79: a run in which no jump is taken and every RW is answered ends within 2 * (128 - PC) transitions, whether or
not it holds an RW. This is up to twice R79's MEM_SIZE - PC0 steps, which count an RW once. That an RW whose input is to
come takes exactly two transitions is log 3, the model's choice (the log calls it unsafe for such counts). -/
def Obligations.JumpFreeRunEnds : Prop :=
  ∀ s : State, ReadyToFetch s →
    (∀ (k : Nat) (u : State), Host.Core.run core k s = .next u → u.rs = .running →
      takesJump u = false ∧ (u.waiting = true → u.inputs ≠ [])) →
    ∃ u, Host.Core.run core (2 * (128 - s.pc.toNat)) s = .next u ∧ RunEnded u
end

