-- ==== Sys2Proof/Laws/Codec.lean ====
section
/-! SUPPORT. The arithmetic of words, bytes and decimal digit groups. -/

namespace Sys2Proof

/-- The integer value of a wrapped result: the balanced remainder modulo 2^32 (R7). -/
@[simp] theorem wrapW_toInt (v : Int) : (wrapW v).toInt = v.bmod (2 ^ 32) := BitVec.toInt_ofInt ..

/-- Wrapping a value in the signed W-bit range changes nothing. -/
theorem wrapW_toInt_of_range {v : Int} (h0 : -2147483648 ≤ v) (h1 : v < 2147483648) : (wrapW v).toInt = v := by
  rw [wrapW_toInt]
  exact Int.bmod_eq_of_le (by omega) (by omega)

/-- A word is the wrap of its own value. -/
@[simp] theorem wrapW_of_toInt (w : Word) : wrapW w.toInt = w := BitVec.ofInt_toInt ..

/-- The value of a word is in the signed W-bit range. -/
theorem word_range (w : Word) : -2147483648 ≤ w.toInt ∧ w.toInt < 2147483648 := by
  have h0 := BitVec.le_toInt w
  have h1 := BitVec.toInt_lt (x := w)
  norm_num at h0 h1
  exact ⟨h0, h1⟩

/-- The digit groups of an integer: they make it up, the operand has at most two digits and the integer's sign. -/
theorem digits_spec (v : Int) :
    v = 100 * v.tdiv 100 + v.tmod 100 ∧ (0 ≤ v → 0 ≤ v.tmod 100 ∧ v.tmod 100 ≤ 99 ∧ 0 ≤ v.tdiv 100) ∧
      (v ≤ 0 → -99 ≤ v.tmod 100 ∧ v.tmod 100 ≤ 0 ∧ v.tdiv 100 ≤ 0) := by
  have h := Int.mul_tdiv_add_tmod v 100
  rcases Int.le_total 0 v with hv | hv
  · have h0 := Int.tmod_nonneg 100 hv
    have h1 := Int.tmod_lt_of_pos v (b := 100) (by decide)
    omega
  · have h0 := Int.tmod_nonneg 100 (a := -v) (by omega)
    have h1 := Int.tmod_lt_of_pos (-v) (b := 100) (by decide)
    rw [Int.neg_tmod] at h0 h1
    omega

/-- The digit groups are the only ones with that sum, size and sign. -/
theorem digits_unique {q r : Int} (h : (0 ≤ q ∧ 0 ≤ r ∧ r ≤ 99) ∨ (q ≤ 0 ∧ -99 ≤ r ∧ r ≤ 0)) :
    (q * 100 + r).tdiv 100 = q ∧ (q * 100 + r).tmod 100 = r := by
  have := digits_spec (q * 100 + r)
  rcases h with h | h
  · have := this.2.1 (by omega)
    omega
  · have := this.2.2 (by omega)
    omega

/-- The four bytes of a word make it up. -/
@[simp] theorem wordOfBytes_byteOf (w : Word) :
    wordOfBytes (byteOf w 0) (byteOf w 1) (byteOf w 2) (byteOf w 3) = w := by
  apply BitVec.eq_of_toNat_eq
  simp only [wordOfBytes, byteOf, BitVec.toNat_ofNat]
  omega

/-- The bytes of a word built from bytes are those bytes. -/
theorem byteOf_wordOfBytes (b0 b1 b2 b3 : Byte) :
    byteOf (wordOfBytes b0 b1 b2 b3) 0 = b0 ∧ byteOf (wordOfBytes b0 b1 b2 b3) 1 = b1 ∧
      byteOf (wordOfBytes b0 b1 b2 b3) 2 = b2 ∧ byteOf (wordOfBytes b0 b1 b2 b3) 3 = b3 := by
  refine ⟨?_, ?_, ?_, ?_⟩ <;> apply BitVec.eq_of_toNat_eq <;>
    simp only [wordOfBytes, byteOf, BitVec.toNat_ofNat] <;> omega

/-- What `decode` answers, by opcode. -/
theorem decode_eq (w : Word) : decode w = instrOf (w.toInt.tdiv 100) (w.toInt.tmod 100) := rfl

/-- A property of a conditional choice of instructions, from its two branches. -/
theorem ite_holds {c : Prop} [Decidable c] (p : Instr → Prop) {i j : Instr} (hi : c → p i) (hj : ¬ c → p j) :
    p (if c then i else j) := by
  by_cases h : c
  · rw [if_pos h]; exact hi h
  · rw [if_neg h]; exact hj h

/-- The instruction an opcode value names has that opcode. -/
@[simp] theorem instrOf_opcode (opcode opd : Int) : (instrOf opcode opd).opcode = opcode := by
  unfold instrOf
  iterate 13 refine ite_holds (fun i => i.opcode = opcode) (fun h => h.symm) fun _ => ?_
  rfl

/-- The instruction an opcode value names has the operand given. -/
@[simp] theorem instrOf_operand (opcode opd : Int) : (instrOf opcode opd).operand = opd := by
  unfold instrOf
  iterate 13 refine ite_holds (fun i => i.operand = opd) (fun _ => rfl) fun _ => ?_
  rfl

/-- An opcode value outside 0..12 names no recognized instruction (R63). -/
theorem instrOf_of_unrecognized {opcode : Int} (h : opcode < 0 ∨ 13 ≤ opcode) (opd : Int) :
    instrOf opcode opd = .unrecognized opcode opd := by
  unfold instrOf
  iterate 13 rw [if_neg (by omega)]

/-- Every word decodes to a well-formed instruction (R57, R59). -/
theorem decode_wf (w : Word) : (decode w).wf = true := by
  have hd := digits_spec w.toInt
  have hr := word_range w
  rw [decode_eq]
  unfold instrOf
  iterate 13
    refine ite_holds (fun i => i.wf = true) (fun h => ?_) fun _ => ?_
    · simp only [Instr.wf, laOperandOk, operandOk, decide_eq_true_eq]
      omega
  simp only [Instr.wf, opcodeUnrecognized, digitsAgree, packFits, Bool.and_eq_true, decide_eq_true_eq]
  omega

end Sys2Proof
end

