-- ==== Sys2Proof/Laws/Memory.lean ====
section
/-! SUPPORT. The laws of memory: a read after a write, and that every operation keeps the one form. -/

namespace Sys2Proof.Machine.Memory

theorem readByte_eraseByte (m : Memory) (k j : Nat) :
    (m.eraseByte k).readByte j = if k = j then Config.unlistedByte else m.readByte j := by
  induction m with
  | nil => simp [eraseByte, readByte]
  | cons c m ih =>
    unfold eraseByte at ih ⊢
    by_cases hc : c.1 = k
    · rw [List.filter_cons_of_neg (by simpa using hc), ih]
      by_cases hk : k = j <;> simp [readByte, hk, hc]
    · rw [List.filter_cons_of_pos (by simpa using hc)]
      by_cases hj : c.1 = j
      · simp [readByte, hj, show k ≠ j by omega]
      · rw [readByte, if_neg hj, readByte, if_neg hj]
        exact ih

theorem readByte_insertByte {m : Memory} {k : Nat} (h : ∀ c ∈ m, c.1 ≠ k) (b : Byte) (j : Nat) :
    (insertByte k b m).readByte j = if k = j then b else m.readByte j := by
  induction m with
  | nil => simp [insertByte, readByte]
  | cons c m ih =>
    have ih := ih fun d hd => h d (List.mem_cons_of_mem _ hd)
    have hc := h c List.mem_cons_self
    unfold insertByte
    split
    · simp [readByte]
    · by_cases hj : c.1 = j
      · simp [readByte, hj, show k ≠ j by omega]
      · simp [readByte, hj, ih]

theorem ne_of_mem_eraseByte {m : Memory} {k : Nat} : ∀ c ∈ m.eraseByte k, c.1 ≠ k := by
  intro c hc
  simpa using (List.mem_filter.mp hc).2

/-- A byte reads as last written, and a write leaves every other byte alone: of every list, in the one form or not. -/
theorem readByte_writeByte (m : Memory) (k j : Nat) (b : Byte) :
    (m.writeByte k b).readByte j = if k = j then b else m.readByte j := by
  unfold writeByte
  split
  · next h => rw [readByte_eraseByte, h]
  · rw [readByte_insertByte ne_of_mem_eraseByte, readByte_eraseByte]
    split <;> rfl

/-- The word just written is the word read (R51). -/
@[simp] theorem readWord_writeWord_same (m : Memory) (a : Nat) (v : Word) : (m.writeWord a v).readWord a = v := by
  simp [readWord, writeWord, readByte_writeByte]

/-- A word write leaves every byte of every other word alone. -/
theorem readByte_writeWord_of_outside (m : Memory) (a k : Nat) (v : Word) (h : k < 4 * a ∨ 4 * a + 4 ≤ k) :
    (m.writeWord a v).readByte k = m.readByte k := by
  simp only [writeWord, readByte_writeByte]
  rw [if_neg (by omega), if_neg (by omega), if_neg (by omega), if_neg (by omega)]

/-- A word write leaves every other word alone (R44). -/
theorem readWord_writeWord_of_ne (m : Memory) {a b : Nat} (v : Word) (h : a ≠ b) :
    (m.writeWord a v).readWord b = m.readWord b := by
  simp only [readWord]
  rw [readByte_writeWord_of_outside _ _ _ _ (by omega), readByte_writeWord_of_outside _ _ _ _ (by omega),
    readByte_writeWord_of_outside _ _ _ _ (by omega), readByte_writeWord_of_outside _ _ _ _ (by omega)]

theorem eraseByte_wf {m : Memory} (h : m.wf) (k : Nat) : (m.eraseByte k).wf :=
  ⟨h.1.filter _, fun c hc => h.2 c (List.mem_filter.mp hc).1⟩

theorem mem_insertByte {k : Nat} {b : Byte} {m : Memory} {c : Host.Cell} (h : c ∈ insertByte k b m) :
    c = (k, b) ∨ c ∈ m := by
  induction m with
  | nil => simpa [insertByte] using h
  | cons d m ih =>
    unfold insertByte at h
    split at h
    · simpa using h
    · rcases List.mem_cons.mp h with rfl | h
      · simp
      · rcases ih h with rfl | h <;> simp [*]

theorem insertByte_sorted {m : Memory} {k : Nat} (h : m.Pairwise fun c d => c.1 < d.1) (hk : ∀ c ∈ m, c.1 ≠ k)
    (b : Byte) : (insertByte k b m).Pairwise fun c d => c.1 < d.1 := by
  induction m with
  | nil => simp [insertByte]
  | cons c m ih =>
    have hc := List.pairwise_cons.mp h
    have hck := hk c List.mem_cons_self
    unfold insertByte
    split
    · next hlt =>
      refine List.pairwise_cons.mpr ⟨fun d hd => ?_, h⟩
      rcases List.mem_cons.mp hd with rfl | hd
      · exact hlt
      · exact Nat.lt_trans hlt (hc.1 d hd)
    · next hge =>
      refine List.pairwise_cons.mpr ⟨fun d hd => ?_, ih hc.2 fun d hd => hk d (List.mem_cons_of_mem _ hd)⟩
      rcases mem_insertByte hd with rfl | hd
      · simp only
        omega
      · exact hc.1 d hd

/-- A byte write below the end of memory keeps the one form. -/
theorem writeByte_wf {m : Memory} (h : m.wf) {k : Nat} (hk : k < 4 * Config.memSize) (b : Byte) :
    (m.writeByte k b).wf := by
  have he := eraseByte_wf h k
  unfold writeByte
  split
  · exact he
  · next hb =>
    refine ⟨insertByte_sorted he.1 ne_of_mem_eraseByte b, fun c hc => ?_⟩
    rcases mem_insertByte hc with rfl | hc
    · exact ⟨hb, hk⟩
    · exact he.2 c hc

/-- A word write to an address of the MemoryBank keeps the one form. -/
theorem writeWord_wf {m : Memory} (h : m.wf) {a : Nat} (ha : a < 128) (v : Word) : (m.writeWord a v).wf :=
  writeByte_wf (writeByte_wf (writeByte_wf (writeByte_wf h (by simp; omega) _) (by simp; omega) _)
    (by simp; omega) _) (by simp; omega) _

/-- The memory of the state after reset has the one form. -/
theorem reset_mem_wf : State.reset.mem.wf := ⟨.nil, fun _ h => by cases h⟩

end Sys2Proof.Machine.Memory
end

