-- ==== Sys2Proof/Laws/State.lean ====
section
/-! SUPPORT. One lemma per field and update of the state, true by rfl, so that no proof unfolds an update; what raising
a fault and the advance do to each field. -/

namespace Sys2Proof.Machine.State

variable (s : State)

@[simp] theorem setMem_acc (m : Memory) : (s.setMem m).acc = s.acc := rfl
@[simp] theorem setMem_pc (m : Memory) : (s.setMem m).pc = s.pc := rfl
@[simp] theorem setMem_reg0 (m : Memory) : (s.setMem m).reg0 = s.reg0 := rfl
@[simp] theorem setMem_reg1 (m : Memory) : (s.setMem m).reg1 = s.reg1 := rfl
@[simp] theorem setMem_ps (m : Memory) : (s.setMem m).ps = s.ps := rfl
@[simp] theorem setMem_rs (m : Memory) : (s.setMem m).rs = s.rs := rfl
@[simp] theorem setMem_fr (m : Memory) : (s.setMem m).fr = s.fr := rfl
@[simp] theorem setMem_waiting (m : Memory) : (s.setMem m).waiting = s.waiting := rfl
@[simp] theorem setMem_mem (m : Memory) : (s.setMem m).mem = m := rfl
@[simp] theorem setMem_events (m : Memory) : (s.setMem m).events = s.events := rfl
@[simp] theorem setMem_inputs (m : Memory) : (s.setMem m).inputs = s.inputs := rfl
@[simp] theorem setMem_hostCmds (m : Memory) : (s.setMem m).hostCmds = s.hostCmds := rfl

@[simp] theorem setAcc_acc (v : Word) : (s.setAcc v).acc = v := rfl
@[simp] theorem setAcc_pc (v : Word) : (s.setAcc v).pc = s.pc := rfl
@[simp] theorem setAcc_reg0 (v : Word) : (s.setAcc v).reg0 = s.reg0 := rfl
@[simp] theorem setAcc_reg1 (v : Word) : (s.setAcc v).reg1 = s.reg1 := rfl
@[simp] theorem setAcc_ps (v : Word) : (s.setAcc v).ps = s.ps := rfl
@[simp] theorem setAcc_rs (v : Word) : (s.setAcc v).rs = s.rs := rfl
@[simp] theorem setAcc_fr (v : Word) : (s.setAcc v).fr = s.fr := rfl
@[simp] theorem setAcc_waiting (v : Word) : (s.setAcc v).waiting = s.waiting := rfl
@[simp] theorem setAcc_mem (v : Word) : (s.setAcc v).mem = s.mem := rfl
@[simp] theorem setAcc_events (v : Word) : (s.setAcc v).events = s.events := rfl
@[simp] theorem setAcc_inputs (v : Word) : (s.setAcc v).inputs = s.inputs := rfl
@[simp] theorem setAcc_hostCmds (v : Word) : (s.setAcc v).hostCmds = s.hostCmds := rfl
@[simp] theorem setAcc_word (v : Word) (a : Nat) : (s.setAcc v).word a = s.word a := rfl

@[simp] theorem setPc_acc (v : Index8) : (s.setPc v).acc = s.acc := rfl
@[simp] theorem setPc_pc (v : Index8) : (s.setPc v).pc = v := rfl
@[simp] theorem setPc_reg0 (v : Index8) : (s.setPc v).reg0 = s.reg0 := rfl
@[simp] theorem setPc_reg1 (v : Index8) : (s.setPc v).reg1 = s.reg1 := rfl
@[simp] theorem setPc_ps (v : Index8) : (s.setPc v).ps = s.ps := rfl
@[simp] theorem setPc_rs (v : Index8) : (s.setPc v).rs = s.rs := rfl
@[simp] theorem setPc_fr (v : Index8) : (s.setPc v).fr = s.fr := rfl
@[simp] theorem setPc_waiting (v : Index8) : (s.setPc v).waiting = s.waiting := rfl
@[simp] theorem setPc_mem (v : Index8) : (s.setPc v).mem = s.mem := rfl
@[simp] theorem setPc_events (v : Index8) : (s.setPc v).events = s.events := rfl
@[simp] theorem setPc_inputs (v : Index8) : (s.setPc v).inputs = s.inputs := rfl
@[simp] theorem setPc_hostCmds (v : Index8) : (s.setPc v).hostCmds = s.hostCmds := rfl
@[simp] theorem setPc_word (v : Index8) (a : Nat) : (s.setPc v).word a = s.word a := rfl

@[simp] theorem setPs_acc (v : Index8) : (s.setPs v).acc = s.acc := rfl
@[simp] theorem setPs_pc (v : Index8) : (s.setPs v).pc = s.pc := rfl
@[simp] theorem setPs_reg0 (v : Index8) : (s.setPs v).reg0 = s.reg0 := rfl
@[simp] theorem setPs_reg1 (v : Index8) : (s.setPs v).reg1 = s.reg1 := rfl
@[simp] theorem setPs_ps (v : Index8) : (s.setPs v).ps = v := rfl
@[simp] theorem setPs_rs (v : Index8) : (s.setPs v).rs = s.rs := rfl
@[simp] theorem setPs_fr (v : Index8) : (s.setPs v).fr = s.fr := rfl
@[simp] theorem setPs_waiting (v : Index8) : (s.setPs v).waiting = s.waiting := rfl
@[simp] theorem setPs_mem (v : Index8) : (s.setPs v).mem = s.mem := rfl
@[simp] theorem setPs_events (v : Index8) : (s.setPs v).events = s.events := rfl
@[simp] theorem setPs_inputs (v : Index8) : (s.setPs v).inputs = s.inputs := rfl
@[simp] theorem setPs_hostCmds (v : Index8) : (s.setPs v).hostCmds = s.hostCmds := rfl
@[simp] theorem setPs_word (v : Index8) (a : Nat) : (s.setPs v).word a = s.word a := rfl

@[simp] theorem setRs_acc (r : RunState) : (s.setRs r).acc = s.acc := rfl
@[simp] theorem setRs_pc (r : RunState) : (s.setRs r).pc = s.pc := rfl
@[simp] theorem setRs_reg0 (r : RunState) : (s.setRs r).reg0 = s.reg0 := rfl
@[simp] theorem setRs_reg1 (r : RunState) : (s.setRs r).reg1 = s.reg1 := rfl
@[simp] theorem setRs_ps (r : RunState) : (s.setRs r).ps = s.ps := rfl
@[simp] theorem setRs_rs (r : RunState) : (s.setRs r).rs = r := rfl
@[simp] theorem setRs_fr (r : RunState) : (s.setRs r).fr = s.fr := rfl
@[simp] theorem setRs_waiting (r : RunState) : (s.setRs r).waiting = s.waiting := rfl
@[simp] theorem setRs_mem (r : RunState) : (s.setRs r).mem = s.mem := rfl
@[simp] theorem setRs_events (r : RunState) : (s.setRs r).events = s.events := rfl
@[simp] theorem setRs_inputs (r : RunState) : (s.setRs r).inputs = s.inputs := rfl
@[simp] theorem setRs_hostCmds (r : RunState) : (s.setRs r).hostCmds = s.hostCmds := rfl
@[simp] theorem setRs_word (r : RunState) (a : Nat) : (s.setRs r).word a = s.word a := rfl

@[simp] theorem setFr_acc (f : FaultRecord) : (s.setFr f).acc = s.acc := rfl
@[simp] theorem setFr_pc (f : FaultRecord) : (s.setFr f).pc = s.pc := rfl
@[simp] theorem setFr_reg0 (f : FaultRecord) : (s.setFr f).reg0 = s.reg0 := rfl
@[simp] theorem setFr_reg1 (f : FaultRecord) : (s.setFr f).reg1 = s.reg1 := rfl
@[simp] theorem setFr_ps (f : FaultRecord) : (s.setFr f).ps = s.ps := rfl
@[simp] theorem setFr_rs (f : FaultRecord) : (s.setFr f).rs = s.rs := rfl
@[simp] theorem setFr_fr (f : FaultRecord) : (s.setFr f).fr = f := rfl
@[simp] theorem setFr_waiting (f : FaultRecord) : (s.setFr f).waiting = s.waiting := rfl
@[simp] theorem setFr_mem (f : FaultRecord) : (s.setFr f).mem = s.mem := rfl
@[simp] theorem setFr_events (f : FaultRecord) : (s.setFr f).events = s.events := rfl
@[simp] theorem setFr_inputs (f : FaultRecord) : (s.setFr f).inputs = s.inputs := rfl
@[simp] theorem setFr_hostCmds (f : FaultRecord) : (s.setFr f).hostCmds = s.hostCmds := rfl
@[simp] theorem setFr_word (f : FaultRecord) (a : Nat) : (s.setFr f).word a = s.word a := rfl

@[simp] theorem setWaiting_acc (b : Bool) : (s.setWaiting b).acc = s.acc := rfl
@[simp] theorem setWaiting_pc (b : Bool) : (s.setWaiting b).pc = s.pc := rfl
@[simp] theorem setWaiting_reg0 (b : Bool) : (s.setWaiting b).reg0 = s.reg0 := rfl
@[simp] theorem setWaiting_reg1 (b : Bool) : (s.setWaiting b).reg1 = s.reg1 := rfl
@[simp] theorem setWaiting_ps (b : Bool) : (s.setWaiting b).ps = s.ps := rfl
@[simp] theorem setWaiting_rs (b : Bool) : (s.setWaiting b).rs = s.rs := rfl
@[simp] theorem setWaiting_fr (b : Bool) : (s.setWaiting b).fr = s.fr := rfl
@[simp] theorem setWaiting_waiting (b : Bool) : (s.setWaiting b).waiting = b := rfl
@[simp] theorem setWaiting_mem (b : Bool) : (s.setWaiting b).mem = s.mem := rfl
@[simp] theorem setWaiting_events (b : Bool) : (s.setWaiting b).events = s.events := rfl
@[simp] theorem setWaiting_inputs (b : Bool) : (s.setWaiting b).inputs = s.inputs := rfl
@[simp] theorem setWaiting_hostCmds (b : Bool) : (s.setWaiting b).hostCmds = s.hostCmds := rfl
@[simp] theorem setWaiting_word (b : Bool) (a : Nat) : (s.setWaiting b).word a = s.word a := rfl

@[simp] theorem setInputs_acc (vs : List Word) : (s.setInputs vs).acc = s.acc := rfl
@[simp] theorem setInputs_pc (vs : List Word) : (s.setInputs vs).pc = s.pc := rfl
@[simp] theorem setInputs_reg0 (vs : List Word) : (s.setInputs vs).reg0 = s.reg0 := rfl
@[simp] theorem setInputs_reg1 (vs : List Word) : (s.setInputs vs).reg1 = s.reg1 := rfl
@[simp] theorem setInputs_ps (vs : List Word) : (s.setInputs vs).ps = s.ps := rfl
@[simp] theorem setInputs_rs (vs : List Word) : (s.setInputs vs).rs = s.rs := rfl
@[simp] theorem setInputs_fr (vs : List Word) : (s.setInputs vs).fr = s.fr := rfl
@[simp] theorem setInputs_waiting (vs : List Word) : (s.setInputs vs).waiting = s.waiting := rfl
@[simp] theorem setInputs_mem (vs : List Word) : (s.setInputs vs).mem = s.mem := rfl
@[simp] theorem setInputs_events (vs : List Word) : (s.setInputs vs).events = s.events := rfl
@[simp] theorem setInputs_inputs (vs : List Word) : (s.setInputs vs).inputs = vs := rfl
@[simp] theorem setInputs_hostCmds (vs : List Word) : (s.setInputs vs).hostCmds = s.hostCmds := rfl
@[simp] theorem setInputs_word (vs : List Word) (a : Nat) : (s.setInputs vs).word a = s.word a := rfl

@[simp] theorem setHostCmds_acc (cs : List (Option HostCmd)) : (s.setHostCmds cs).acc = s.acc := rfl
@[simp] theorem setHostCmds_pc (cs : List (Option HostCmd)) : (s.setHostCmds cs).pc = s.pc := rfl
@[simp] theorem setHostCmds_reg0 (cs : List (Option HostCmd)) : (s.setHostCmds cs).reg0 = s.reg0 := rfl
@[simp] theorem setHostCmds_reg1 (cs : List (Option HostCmd)) : (s.setHostCmds cs).reg1 = s.reg1 := rfl
@[simp] theorem setHostCmds_ps (cs : List (Option HostCmd)) : (s.setHostCmds cs).ps = s.ps := rfl
@[simp] theorem setHostCmds_rs (cs : List (Option HostCmd)) : (s.setHostCmds cs).rs = s.rs := rfl
@[simp] theorem setHostCmds_fr (cs : List (Option HostCmd)) : (s.setHostCmds cs).fr = s.fr := rfl
@[simp] theorem setHostCmds_waiting (cs : List (Option HostCmd)) : (s.setHostCmds cs).waiting = s.waiting := rfl
@[simp] theorem setHostCmds_mem (cs : List (Option HostCmd)) : (s.setHostCmds cs).mem = s.mem := rfl
@[simp] theorem setHostCmds_events (cs : List (Option HostCmd)) : (s.setHostCmds cs).events = s.events := rfl
@[simp] theorem setHostCmds_inputs (cs : List (Option HostCmd)) : (s.setHostCmds cs).inputs = s.inputs := rfl
@[simp] theorem setHostCmds_hostCmds (cs : List (Option HostCmd)) : (s.setHostCmds cs).hostCmds = cs := rfl
@[simp] theorem setHostCmds_word (cs : List (Option HostCmd)) (a : Nat) : (s.setHostCmds cs).word a = s.word a := rfl

@[simp] theorem emit_acc (e : Event) : (s.emit e).acc = s.acc := rfl
@[simp] theorem emit_pc (e : Event) : (s.emit e).pc = s.pc := rfl
@[simp] theorem emit_reg0 (e : Event) : (s.emit e).reg0 = s.reg0 := rfl
@[simp] theorem emit_reg1 (e : Event) : (s.emit e).reg1 = s.reg1 := rfl
@[simp] theorem emit_ps (e : Event) : (s.emit e).ps = s.ps := rfl
@[simp] theorem emit_rs (e : Event) : (s.emit e).rs = s.rs := rfl
@[simp] theorem emit_fr (e : Event) : (s.emit e).fr = s.fr := rfl
@[simp] theorem emit_waiting (e : Event) : (s.emit e).waiting = s.waiting := rfl
@[simp] theorem emit_mem (e : Event) : (s.emit e).mem = s.mem := rfl
@[simp] theorem emit_events (e : Event) : (s.emit e).events = s.events ++ [e] := rfl
@[simp] theorem emit_inputs (e : Event) : (s.emit e).inputs = s.inputs := rfl
@[simp] theorem emit_hostCmds (e : Event) : (s.emit e).hostCmds = s.hostCmds := rfl
@[simp] theorem emit_word (e : Event) (a : Nat) : (s.emit e).word a = s.word a := rfl

@[simp] theorem raise_acc (k : FaultKind) (a : Index8) (opd : Int) : (s.raise k a opd).acc = s.acc := rfl
@[simp] theorem raise_pc (k : FaultKind) (a : Index8) (opd : Int) : (s.raise k a opd).pc = s.pc := rfl
@[simp] theorem raise_reg0 (k : FaultKind) (a : Index8) (opd : Int) : (s.raise k a opd).reg0 = s.reg0 := rfl
@[simp] theorem raise_reg1 (k : FaultKind) (a : Index8) (opd : Int) : (s.raise k a opd).reg1 = s.reg1 := rfl
@[simp] theorem raise_ps (k : FaultKind) (a : Index8) (opd : Int) : (s.raise k a opd).ps = s.ps := rfl
@[simp] theorem raise_rs (k : FaultKind) (a : Index8) (opd : Int) : (s.raise k a opd).rs = .faulted := rfl
@[simp] theorem raise_fr (k : FaultKind) (a : Index8) (opd : Int) : (s.raise k a opd).fr = { kind := k, addr := a, operand := wrapW opd } := rfl
@[simp] theorem raise_waiting (k : FaultKind) (a : Index8) (opd : Int) : (s.raise k a opd).waiting = s.waiting := rfl
@[simp] theorem raise_mem (k : FaultKind) (a : Index8) (opd : Int) : (s.raise k a opd).mem = s.mem := rfl
@[simp] theorem raise_events (k : FaultKind) (a : Index8) (opd : Int) : (s.raise k a opd).events = s.events := rfl
@[simp] theorem raise_inputs (k : FaultKind) (a : Index8) (opd : Int) : (s.raise k a opd).inputs = s.inputs := rfl
@[simp] theorem raise_hostCmds (k : FaultKind) (a : Index8) (opd : Int) : (s.raise k a opd).hostCmds = s.hostCmds := rfl
@[simp] theorem raise_word (k : FaultKind) (a : Index8) (opd : Int) (b : Nat) : (s.raise k a opd).word b = s.word b := rfl

@[simp] theorem storeHD_acc (a : Nat) (v : Word) : (s.storeHD a v).acc = s.acc := rfl
@[simp] theorem storeHD_pc (a : Nat) (v : Word) : (s.storeHD a v).pc = s.pc := rfl
@[simp] theorem storeHD_reg0 (a : Nat) (v : Word) : (s.storeHD a v).reg0 = s.reg0 := rfl
@[simp] theorem storeHD_reg1 (a : Nat) (v : Word) : (s.storeHD a v).reg1 = s.reg1 := rfl
@[simp] theorem storeHD_ps (a : Nat) (v : Word) : (s.storeHD a v).ps = s.ps := rfl
@[simp] theorem storeHD_rs (a : Nat) (v : Word) : (s.storeHD a v).rs = s.rs := rfl
@[simp] theorem storeHD_fr (a : Nat) (v : Word) : (s.storeHD a v).fr = s.fr := rfl
@[simp] theorem storeHD_waiting (a : Nat) (v : Word) : (s.storeHD a v).waiting = s.waiting := rfl
@[simp] theorem storeHD_events (a : Nat) (v : Word) : (s.storeHD a v).events = s.events := rfl
@[simp] theorem storeHD_inputs (a : Nat) (v : Word) : (s.storeHD a v).inputs = s.inputs := rfl
@[simp] theorem storeHD_hostCmds (a : Nat) (v : Word) : (s.storeHD a v).hostCmds = s.hostCmds := rfl
@[simp] theorem storeHD_mem (a : Nat) (v : Word) :
    (s.storeHD a v).mem = s.mem.writeWord a (wrapW (v.toInt + highDigits (s.word a))) := rfl

/-- The advance from a PC below the last address: one on, and nothing else. -/
theorem advance_of_lt (h : s.pc.toNat < 127) : s.advance = s.setPc (s.pc + 1) := by
  unfold advance
  exact if_pos (show s.pc.toNat + 1 < 128 by omega)

/-- The advance from the last address: PC = 128 and the bound fault that records it. -/
theorem advance_of_last (h : s.pc.toNat = 127) : s.advance = (s.setPc 128).raise .pcOutOfBounds 128 0 := by
  have hpc : s.pc + 1 = 128 := BitVec.eq_of_toNat_eq (by simp [BitVec.toNat_add, h])
  unfold advance
  rw [if_neg (by simp [h]), hpc]


@[simp] theorem advance_acc : s.advance.acc = s.acc := by
  unfold advance; split <;> rfl
@[simp] theorem advance_reg0 : s.advance.reg0 = s.reg0 := by
  unfold advance; split <;> rfl
@[simp] theorem advance_reg1 : s.advance.reg1 = s.reg1 := by
  unfold advance; split <;> rfl
@[simp] theorem advance_ps : s.advance.ps = s.ps := by
  unfold advance; split <;> rfl
@[simp] theorem advance_waiting : s.advance.waiting = s.waiting := by
  unfold advance; split <;> rfl
@[simp] theorem advance_mem : s.advance.mem = s.mem := by
  unfold advance; split <;> rfl
@[simp] theorem advance_events : s.advance.events = s.events := by
  unfold advance; split <;> rfl
@[simp] theorem advance_inputs : s.advance.inputs = s.inputs := by
  unfold advance; split <;> rfl
@[simp] theorem advance_hostCmds : s.advance.hostCmds = s.hostCmds := by
  unfold advance; split <;> rfl
@[simp] theorem advance_pc : s.advance.pc = s.pc + 1 := by
  unfold advance; split <;> rfl
@[simp] theorem advance_word (a : Nat) : s.advance.word a = s.word a := by
  unfold advance; split <;> rfl

/-! The architectural state: its fields, and that the history and the host's lists are no part of it. -/

@[simp] theorem archState_acc : (archState s).acc = s.acc := rfl
@[simp] theorem archState_pc : (archState s).pc = s.pc := rfl
@[simp] theorem archState_reg0 : (archState s).reg0 = s.reg0 := rfl
@[simp] theorem archState_reg1 : (archState s).reg1 = s.reg1 := rfl
@[simp] theorem archState_ps : (archState s).ps = s.ps := rfl
@[simp] theorem archState_rs : (archState s).rs = s.rs := rfl
@[simp] theorem archState_fr : (archState s).fr = s.fr := rfl
@[simp] theorem archState_waiting : (archState s).waiting = s.waiting := rfl
@[simp] theorem archState_mem : (archState s).mem = s.mem := rfl
@[simp] theorem archState_emit (e : Event) : archState (s.emit e) = archState s := rfl
@[simp] theorem archState_setInputs (vs : List Word) : archState (s.setInputs vs) = archState s := rfl
@[simp] theorem archState_setHostCmds (cs : List (Option HostCmd)) : archState (s.setHostCmds cs) = archState s := rfl

end Sys2Proof.Machine.State
end

