-- ==== Sys2Proof/Laws/Ops.lean ====
section
/-! SUPPORT. One lemma for each shared operation that says everything it can do: the operand check, the advance, the
store, a jump, a step. -/

namespace Sys2Proof.Machine

variable {s t : State} {opd : Int} {a : Nat}

/-- The bound check passes exactly for the addresses of the MemoryBank, and the address is the operand (R45, R46). -/
theorem dataAddress_eq_some : dataAddress opd = some a ↔ 0 ≤ opd ∧ opd < 128 ∧ (a : Int) = opd := by
  unfold dataAddress
  split
  · next h =>
    simp only [Config.memSize] at h
    simp only [Option.some.injEq]
    omega
  · next h =>
    simp only [Config.memSize] at h
    simp only [reduceCtorEq, false_iff]
    omega

/-- The bound check passes for an operand in range. -/
theorem dataAddress_of_range (h0 : 0 ≤ opd) (h1 : opd < 128) : dataAddress opd = some opd.toNat :=
  dataAddress_eq_some.mpr ⟨h0, h1, by omega⟩

/-- The bound check fails for a negative operand. -/
theorem dataAddress_of_neg (h : opd < 0) : dataAddress opd = none :=
  if_neg (by omega)

/-- A data-addressing instruction with its operand in range has its effect at the operand. -/
theorem withDataAddress_of_range (h0 : 0 ≤ opd) (h1 : opd < 128) (f : Nat → State) :
    withDataAddress opd s f = f opd.toNat := by
  simp [withDataAddress, dataAddress_of_range h0 h1]

/-- A data-addressing instruction with a negative operand raises OperandOutOfBounds (R125). -/
theorem withDataAddress_of_neg (h : opd < 0) (f : Nat → State) :
    withDataAddress opd s f = s.raise .operandOutOfBounds s.pc opd := by
  simp [withDataAddress, dataAddress_of_neg h]

/-- Whatever a data-addressing instruction does: its effect at its operand, or the fault. -/
theorem withDataAddress_holds (P : State → Prop) {f : Nat → State}
    (hf : ∀ a : Nat, (a : Int) = opd → a < 128 → P (f a))
    (hfault : opd < 0 ∨ 128 ≤ opd → P (s.raise .operandOutOfBounds s.pc opd)) :
    P (withDataAddress opd s f) := by
  unfold withDataAddress
  split
  · next a h =>
    have := dataAddress_eq_some.mp h
    exact hf a this.2.2 (by omega)
  · next h =>
    refine hfault ?_
    by_contra hn
    rw [dataAddress_of_range (by omega) (by omega)] at h
    cases h

/-- PC, RS and FR after the advance (R73, R74). -/
theorem advance_advancedFrom (h : s.pc.toNat < 128) : AdvancedFrom s.pc.toNat s s.advance := by
  have hpc : (s.pc + 1).toNat = s.pc.toNat + 1 := by
    rw [BitVec.toNat_add]
    simp
    omega
  refine ⟨by rw [State.advance_pc, hpc]; rfl, fun hl => ?_, fun hl => ?_⟩
  · rw [State.advance_of_lt s (by omega)]
    exact ⟨rfl, rfl⟩
  · rw [State.advance_of_last s (by omega)]
    exact ⟨rfl, rfl⟩

/-- What a jump writes to PC is its operand (R104). -/
@[simp] theorem jumpBase_toNat (h0 : 0 ≤ opd) (h1 : opd ≤ 99) : ((jumpBase opd).toNat : Int) = opd := by
  simp only [jumpBase, BitVec.toNat_ofInt]
  omega

/-- A store writes the value plus the hundreds of the old word (R44). -/
@[simp] theorem storeHD_word_same (a : Nat) (v : Word) :
    (s.storeHD a v).word a = wrapW (v.toInt + highDigits (s.word a)) := by
  simp [State.word]

/-- A store leaves every other word alone. -/
theorem storeHD_word_of_ne {a b : Nat} (v : Word) (h : a ≠ b) : (s.storeHD a v).word b = s.word b :=
  Memory.readWord_writeWord_of_ne _ _ h

/-- A load write sets the word at its address. -/
@[simp] theorem loadWord_word_same (a : Nat) (v : Word) : (loadWord s a v).word a = v := by
  simp [loadWord, State.word]

/-- A load write leaves every other word alone. -/
theorem loadWord_word_of_ne {a b : Nat} (v : Word) (h : a ≠ b) : (loadWord s a v).word b = s.word b :=
  Memory.readWord_writeWord_of_ne _ _ h

/-- With the host still, a step is a step of the core. -/
theorem step_of_no_command (h : s.hostCmds = []) : step s = coreStep s := by
  simp [step, machineStep, h]

/-- With the host still and the core ready, a step is the instruction at PC. -/
theorem step_of_ready (h : ReadyToFetch s) : step s = exec (fetch s) s := by
  obtain ⟨hc, hr, hw, hp⟩ := h
  simp [step_of_no_command hc, coreStep, hr, hw, instructionStep, hp]

/-- With the host still and the core waiting, a step is the resumption of the wait. -/
theorem step_of_waiting (hc : s.hostCmds = []) (hr : s.rs = .running) (hw : s.waiting = true) :
    step s = resumeWait s := by
  simp [step_of_no_command hc, coreStep, hr, hw]

/-- With the host still, a core that is not running stays as it is (R70). -/
theorem step_of_not_running (hc : s.hostCmds = []) (hr : s.rs ≠ .running) : step s = .next s := by
  rw [step_of_no_command hc]
  unfold coreStep
  split
  · next h => exact absurd h hr
  all_goals rfl

end Sys2Proof.Machine
end

