-- ==== Sys2Proof/Laws/PerInstr.lean ====
section
/-! SUPPORT. Per instruction: the packed value of a well-formed instruction is the value of its word, so the encoder
wraps nothing (spec/30_encoding.md R58, R59). -/

namespace Sys2Proof.Laws.PackedValue

/-- The word of a well-formed instruction has the value opcode * 100 + operand. -/
def Statement (i : Instr) : Prop := i.wf = true → (encode i).toInt = i.opcode * 100 + i.operand

/-- A recognized opcode with a two-digit operand packs without a wrap. -/
theorem of_digits {i : Instr} (ho : 0 ≤ i.opcode ∧ i.opcode ≤ 12) (h : -99 ≤ i.operand ∧ i.operand ≤ 99) :
    (encode i).toInt = i.opcode * 100 + i.operand :=
  wrapW_toInt_of_range (by simp only [Config.packBase]; omega) (by simp only [Config.packBase]; omega)

/-- The bounds of a two-digit operand. -/
theorem operandOk_bounds {opd : Int} (h : operandOk opd = true) : -99 ≤ opd ∧ opd ≤ 99 := by
  simp only [operandOk, decide_eq_true_eq] at h
  omega

theorem la (opd : Int) : Statement (.la opd) := fun h =>
  of_digits (by simp [Instr.opcode]) (by simpa only [Instr.wf, laOperandOk, decide_eq_true_eq, Instr.operand] using h)

theorem sa (opd : Int) : Statement (.sa opd) := fun h =>
  of_digits (by simp [Instr.opcode]) (operandOk_bounds h)

theorem aa (opd : Int) : Statement (.aa opd) := fun h =>
  of_digits (by simp [Instr.opcode]) (operandOk_bounds h)

theorem mul (opd : Int) : Statement (.mul opd) := fun h =>
  of_digits (by simp [Instr.opcode]) (operandOk_bounds h)

theorem div (opd : Int) : Statement (.div opd) := fun h =>
  of_digits (by simp [Instr.opcode]) (operandOk_bounds h)

theorem sub (opd : Int) : Statement (.sub opd) := fun h =>
  of_digits (by simp [Instr.opcode]) (operandOk_bounds h)

theorem jmp (opd : Int) : Statement (.jmp opd) := fun h =>
  of_digits (by simp [Instr.opcode]) (operandOk_bounds h)

theorem jeq (opd : Int) : Statement (.jeq opd) := fun h =>
  of_digits (by simp [Instr.opcode]) (operandOk_bounds h)

theorem jgt (opd : Int) : Statement (.jgt opd) := fun h =>
  of_digits (by simp [Instr.opcode]) (operandOk_bounds h)

theorem jlt (opd : Int) : Statement (.jlt opd) := fun h =>
  of_digits (by simp [Instr.opcode]) (operandOk_bounds h)

theorem pw (opd : Int) : Statement (.pw opd) := fun h =>
  of_digits (by simp [Instr.opcode]) (operandOk_bounds h)

theorem rw (opd : Int) : Statement (.rw opd) := fun h =>
  of_digits (by simp [Instr.opcode]) (operandOk_bounds h)

theorem stop (opd : Int) : Statement (.stop opd) := fun h =>
  of_digits (by simp [Instr.opcode]) (operandOk_bounds h)

theorem unrecognized (opcode opd : Int) : Statement (.unrecognized opcode opd) := fun h => by
  simp only [Instr.wf, packFits, Bool.and_eq_true, decide_eq_true_eq] at h
  exact wrapW_toInt_of_range h.2.1 h.2.2

end Sys2Proof.Laws.PackedValue
end

