-- ==== Sys2Proof/Laws/Step.lean ====
section
/-! SUPPORT. Everything a step of the core can do, said once: the effects of dispatch, the ways a ready step ends, and
what a waiting core does. Proofs about steps take these apart instead of unfolding the machine. -/

namespace Sys2Proof.Machine

/-- What dispatch makes of the state where it raises no fault, takes no jump, does not wait and does not stop. -/
inductive DispatchEffect (s : State) : Instr → State → Prop
  | load {opd : Int} (h0 : 0 ≤ opd) (h1 : opd ≤ 99) : DispatchEffect s (.la opd) (s.setAcc (s.word opd.toNat))
  | store {opd : Int} (h0 : 0 ≤ opd) (h1 : opd ≤ 99) : DispatchEffect s (.sa opd) (s.storeHD opd.toNat s.acc)
  | add {opd : Int} (h0 : 0 ≤ opd) (h1 : opd ≤ 99) :
      DispatchEffect s (.aa opd) (s.setAcc (wrapW (s.acc.toInt + (s.word opd.toNat).toInt)))
  | mul {opd : Int} (h0 : 0 ≤ opd) (h1 : opd ≤ 99) :
      DispatchEffect s (.mul opd) (s.setAcc (wrapW (s.acc.toInt * (s.word opd.toNat).toInt)))
  | sub {opd : Int} (h0 : 0 ≤ opd) (h1 : opd ≤ 99) :
      DispatchEffect s (.sub opd) (s.setAcc (wrapW (s.acc.toInt - (s.word opd.toNat).toInt)))
  | div {opd : Int} (h0 : 0 ≤ opd) (h1 : opd ≤ 99) (hz : (s.word opd.toNat).toInt ≠ 0) :
      DispatchEffect s (.div opd) (s.setAcc (wrapW (s.acc.toInt.tdiv (s.word opd.toNat).toInt)))
  | untaken {i : Instr} (h6 : 6 ≤ i.opcode) (h9 : i.opcode ≤ 9) : DispatchEffect s i s
  | output {opd : Int} (h0 : 0 ≤ opd) (h1 : opd ≤ 99) :
      DispatchEffect s (.pw opd) (s.emit (.output (s.word opd.toNat)))
  | report (opcode opd : Int) :
      DispatchEffect s (.unrecognized opcode opd) (s.emit (.unknownOpcode s.pc (encodePair opcode opd) opcode))

/-- Every way a step from a ready state ends. -/
inductive StepEffect (s : State) : State → Prop
  | advance {u : State} (hu : DispatchEffect s (fetch s) u) (hj : takesJump s = false) : StepEffect s u.advance
  | jump {opd : Int} (h0 : 0 ≤ opd) (h1 : opd ≤ 99) (hf : (fetch s).operand = opd) (h6 : 6 ≤ (fetch s).opcode)
      (h9 : (fetch s).opcode ≤ 9) (hj : takesJump s = true) : StepEffect s (s.setPc (jumpBase opd)).advance
  | stop (hf : (fetch s).opcode = 12) (hj : takesJump s = false) (hp : s.pc.toNat < 127) :
      StepEffect s (s.advance.setRs .stopped)
  | stopAtLast (hf : (fetch s).opcode = 12) (hj : takesJump s = false) (hp : s.pc.toNat = 127) :
      StepEffect s s.advance
  | issue {opd : Int} (h0 : 0 ≤ opd) (h1 : opd ≤ 99) (hf : fetch s = .rw opd) (hj : takesJump s = false) :
      StepEffect s (s.setWaiting true)
  | divisionByZero {opd : Int} (h0 : 0 ≤ opd) (h1 : opd ≤ 99) (hf : fetch s = .div opd)
      (hz : (s.word opd.toNat).toInt = 0) : StepEffect s (s.raise .divisionByZero s.pc opd)
  | operandOutOfBounds {opd : Int} (h0 : -99 ≤ opd) (h1 : opd < 0) (hf : fetch s = .la opd) :
      StepEffect s (s.raise .operandOutOfBounds s.pc opd)

/-- Dispatch of this kind leaves PC, RS and FR, and everything the host and the input channel hold. -/
theorem DispatchEffect.keeps {s u : State} {i : Instr} (h : DispatchEffect s i u) :
    u.pc = s.pc ∧ u.rs = s.rs ∧ u.fr = s.fr ∧ u.reg0 = s.reg0 ∧ u.reg1 = s.reg1 ∧ u.ps = s.ps ∧
      u.waiting = s.waiting ∧ u.inputs = s.inputs ∧ u.hostCmds = s.hostCmds := by
  cases h <;> exact ⟨rfl, rfl, rfl, rfl, rfl, rfl, rfl, rfl, rfl⟩

/-- The fetched instruction is well-formed. -/
theorem fetch_wf (s : State) : (fetch s).wf = true := decode_wf _

/-- The fetched instruction, named, is well-formed. -/
theorem wf_of_fetch {s : State} {i : Instr} (h : fetch s = i) : i.wf = true := h ▸ fetch_wf s

/-- The operand of a well-formed two-digit form. -/
theorem operand_range {opd : Int} (h : operandOk opd = true) : 0 ≤ opd ∧ opd ≤ 99 := by
  simpa only [operandOk, decide_eq_true_eq] using h

variable {s : State}

/-- A fetched jump, taken or not, ends in one of the two ways a jump has. -/
theorem jumpIf_stepEffect {opd : Int} {taken : Bool} (h0 : 0 ≤ opd) (h1 : opd ≤ 99) (hf : (fetch s).operand = opd)
    (h6 : 6 ≤ (fetch s).opcode) (h9 : (fetch s).opcode ≤ 9) (hj : takesJump s = taken) :
    StepEffect s (jumpIf taken opd s) := by
  cases taken
  · exact .advance (.untaken h6 h9) hj
  · exact .jump h0 h1 hf h6 h9 hj

/-- A step from a ready state has a next state, reached in one of the listed ways. -/
theorem step_effect (h : ReadyToFetch s) : ∃ t, step s = .next t ∧ StepEffect s t := by
  rw [step_of_ready h]
  cases hf : fetch s with
  | la opd =>
    have hwf := wf_of_fetch hf
    simp only [Instr.wf, laOperandOk, decide_eq_true_eq] at hwf
    refine ⟨_, rfl, ?_⟩
    by_cases hn : opd < 0
    · rw [withDataAddress_of_neg hn]
      exact .operandOutOfBounds hwf.1 hn hf
    · rw [withDataAddress_of_range (by omega) (by omega)]
      exact .advance (by rw [hf]; exact .load (by omega) hwf.2) (by simp [takesJump, hf])
  | sa opd =>
    obtain ⟨h0, h1⟩ := operand_range (wf_of_fetch hf)
    refine ⟨_, rfl, ?_⟩
    rw [withDataAddress_of_range h0 (by omega)]
    exact .advance (by rw [hf]; exact .store h0 h1) (by simp [takesJump, hf])
  | aa opd =>
    obtain ⟨h0, h1⟩ := operand_range (wf_of_fetch hf)
    refine ⟨_, rfl, ?_⟩
    rw [accumulate, withDataAddress_of_range h0 (by omega)]
    exact .advance (by rw [hf]; exact .add h0 h1) (by simp [takesJump, hf])
  | mul opd =>
    obtain ⟨h0, h1⟩ := operand_range (wf_of_fetch hf)
    refine ⟨_, rfl, ?_⟩
    rw [accumulate, withDataAddress_of_range h0 (by omega)]
    exact .advance (by rw [hf]; exact .mul h0 h1) (by simp [takesJump, hf])
  | sub opd =>
    obtain ⟨h0, h1⟩ := operand_range (wf_of_fetch hf)
    refine ⟨_, rfl, ?_⟩
    rw [accumulate, withDataAddress_of_range h0 (by omega)]
    exact .advance (by rw [hf]; exact .sub h0 h1) (by simp [takesJump, hf])
  | div opd =>
    obtain ⟨h0, h1⟩ := operand_range (wf_of_fetch hf)
    refine ⟨_, rfl, ?_⟩
    rw [withDataAddress_of_range h0 (by omega)]
    split
    · next hz => exact .divisionByZero h0 h1 hf hz
    · next hz => exact .advance (by rw [hf]; exact .div h0 h1 hz) (by simp [takesJump, hf])
  | jmp opd =>
    obtain ⟨h0, h1⟩ := operand_range (wf_of_fetch hf)
    exact ⟨_, rfl, jumpIf_stepEffect h0 h1 (by rw [hf]; rfl) (by simp [hf, Instr.opcode]) (by simp [hf, Instr.opcode])
      (by simp [takesJump, hf])⟩
  | jeq opd =>
    obtain ⟨h0, h1⟩ := operand_range (wf_of_fetch hf)
    exact ⟨_, rfl, jumpIf_stepEffect h0 h1 (by rw [hf]; rfl) (by simp [hf, Instr.opcode]) (by simp [hf, Instr.opcode])
      (by simp [takesJump, hf, accIsZero])⟩
  | jgt opd =>
    obtain ⟨h0, h1⟩ := operand_range (wf_of_fetch hf)
    exact ⟨_, rfl, jumpIf_stepEffect h0 h1 (by rw [hf]; rfl) (by simp [hf, Instr.opcode]) (by simp [hf, Instr.opcode])
      (by simp [takesJump, hf, accIsPositive])⟩
  | jlt opd =>
    obtain ⟨h0, h1⟩ := operand_range (wf_of_fetch hf)
    exact ⟨_, rfl, jumpIf_stepEffect h0 h1 (by rw [hf]; rfl) (by simp [hf, Instr.opcode]) (by simp [hf, Instr.opcode])
      (by simp [takesJump, hf, accIsNegative])⟩
  | pw opd =>
    obtain ⟨h0, h1⟩ := operand_range (wf_of_fetch hf)
    refine ⟨_, rfl, ?_⟩
    rw [withDataAddress_of_range h0 (by omega)]
    exact .advance (by rw [hf]; exact .output h0 h1) (by simp [takesJump, hf])
  | rw opd =>
    obtain ⟨h0, h1⟩ := operand_range (wf_of_fetch hf)
    refine ⟨_, rfl, ?_⟩
    rw [withDataAddress_of_range h0 (by omega), h.2.2.1]
    exact .issue h0 h1 hf (by simp [takesJump, hf])
  | stop opd =>
    have hp := h.2.2.2
    refine ⟨_, rfl, ?_⟩
    by_cases hl : s.pc.toNat < 127
    · rw [show decide (s.pc.toNat + 1 < Config.memSize) = true by simp; omega]
      exact .stop (by rw [hf]; rfl) (by simp [takesJump, hf]) hl
    · rw [show decide (s.pc.toNat + 1 < Config.memSize) = false by simp; omega]
      exact .stopAtLast (by rw [hf]; rfl) (by simp [takesJump, hf]) (by omega)
  | unrecognized opcode opd =>
    exact ⟨_, rfl, .advance (by rw [hf]; exact .report opcode opd) (by simp [takesJump, hf])⟩

/-- A waiting core stays as it is, for want of an input or of an RW at PC, or completes the RW with the next input. -/
theorem waiting_step_effect (hc : s.hostCmds = []) (hr : s.rs = .running) (hw : s.waiting = true) :
    (step s = .next s ∧ (s.inputs = [] ∨ ∀ opd, fetch s ≠ .rw opd)) ∨
    ∃ opd v rest, 0 ≤ opd ∧ opd ≤ 99 ∧ fetch s = .rw opd ∧ s.inputs = v :: rest ∧
      step s = .next (((s.storeHD opd.toNat v).setInputs rest).setWaiting false).advance := by
  rw [step_of_waiting hc hr hw, resumeWait]
  cases hf : fetch s with
  | rw opd =>
    obtain ⟨h0, h1⟩ := operand_range (wf_of_fetch hf)
    simp only [exec, execRw]
    rw [withDataAddress_of_range h0 (by omega), hw, rwComplete]
    cases hi : s.inputs with
    | nil => exact .inl ⟨rfl, .inl rfl⟩
    | cons v rest => exact .inr ⟨opd, v, rest, h0, h1, rfl, rfl, rfl⟩
  | _ => exact .inl ⟨rfl, .inr fun _ h => by cases h⟩

/-- A running core whose PC is past the bank raises the bound fault and fetches nothing (R71). -/
theorem step_past_bank (hc : s.hostCmds = []) (hr : s.rs = .running) (hw : s.waiting = false)
    (hp : 128 ≤ s.pc.toNat) : step s = .next (s.raise .pcOutOfBounds s.pc 0) := by
  rw [step_of_no_command hc]
  unfold coreStep
  rw [hr]
  simp only [hw, Bool.false_eq_true, if_false]
  exact if_neg (show ¬ s.pc.toNat < 128 by omega)

/-- Everything a step without a host command can do. -/
theorem core_step_effect (hc : s.hostCmds = []) : ∃ t, step s = .next t ∧
    (t = s ∨
      (s.rs = .running ∧ s.waiting = false ∧ s.pc.toNat < 128 ∧ StepEffect s t) ∨
      (s.rs = .running ∧ s.waiting = false ∧ 128 ≤ s.pc.toNat ∧ t = s.raise .pcOutOfBounds s.pc 0) ∨
      (s.rs = .running ∧ s.waiting = true ∧ ∃ opd v rest, 0 ≤ opd ∧ opd ≤ 99 ∧ fetch s = .rw opd ∧
        s.inputs = v :: rest ∧ t = (((s.storeHD opd.toNat v).setInputs rest).setWaiting false).advance)) := by
  by_cases hr : s.rs = .running
  · cases hw : s.waiting
    · by_cases hp : s.pc.toNat < 128
      · obtain ⟨t, hs, ht⟩ := step_effect ⟨hc, hr, hw, hp⟩
        exact ⟨t, hs, .inr (.inl ⟨hr, rfl, hp, ht⟩)⟩
      · exact ⟨_, step_past_bank hc hr hw (by omega), .inr (.inr (.inl ⟨hr, rfl, by omega, rfl⟩))⟩
    · obtain ⟨hs, _⟩ | ⟨opd, v, rest, h0, h1, hf, hi, hs⟩ := waiting_step_effect hc hr hw
      · exact ⟨s, hs, .inl rfl⟩
      · exact ⟨_, hs, .inr (.inr (.inr ⟨hr, rfl, opd, v, rest, h0, h1, hf, hi, rfl⟩))⟩
  · exact ⟨s, step_of_not_running hc hr, .inl rfl⟩

end Sys2Proof.Machine
end

