-- ==== Sys2Proof/Tests/Slice0.lean ====
section
/-! SUPPORT. Tests of the model against values that stand in spec/ (95_test_vectors.md and the examples of the rules),
the ill-formed terms WellFormed refuses, and a witness for the hypotheses of every statement. -/

namespace Sys2Proof.Tests

open Sys2Proof.Machine

/-- A running machine with the given PC, ACC and words, all else as after reset. -/
def machine (pc : Nat) (acc : Int) (words : List (Nat × Int)) : State :=
  (((words.foldl (fun s w => loadWord s w.1 (wrapW w.2)) State.reset).setPc (BitVec.ofNat 8 pc)).setAcc
    (wrapW acc)).setRs .running

/-- The same machine waiting in an RW, with inputs to come. -/
def waitingMachine (pc : Nat) (words : List (Nat × Int)) (inputs : List Word) : State :=
  ((machine pc 0 words).setWaiting true).setInputs inputs

/-- One step answers a next state with the property. -/
def stepGives (s : State) (p : State → Bool) : Bool :=
  match step s with
  | .next t => p t
  | .fault _ => false
  | .refused _ => false

-- WellFormed: one ill-formed term for each check -------------------------------------------------------------------

theorem test_wf_refuses_operand : (Instr.sa 100).wf = false ∧ (Instr.jmp (-1)).wf = false := by decide
theorem test_wf_refuses_la_operand : (Instr.la 100).wf = false ∧ (Instr.la (-100)).wf = false := by decide
theorem test_wf_refuses_recognized_opcode : (Instr.unrecognized 12 0).wf = false := by decide
theorem test_wf_refuses_digit_sign : (Instr.unrecognized 13 (-1)).wf = false ∧ (Instr.unrecognized (-1) 5).wf = false := by
  decide
theorem test_wf_refuses_too_wide : (Instr.unrecognized 21474836 48).wf = false := by decide
theorem test_wf_accepts_ends : (Instr.la (-99)).wf = true ∧ (Instr.stop 99).wf = true ∧
    (Instr.unrecognized 21474836 47).wf = true ∧ (Instr.unrecognized (-21474836) (-48)).wf = true := by decide

-- Decoding: words of 30_encoding.md R61 and 95_test_vectors.md 2.1, 2.2, 2.3, 3 --------------------------------------

theorem test_decode_la : decode 5 = .la 5 ∧ decode 0xFFFFFFFB = .la (-5) ∧ decode 0xFFFFFF9D = .la (-99) := by decide
theorem test_decode_sa : decode 104 = .sa 4 ∧ decode 199 = .sa 99 := by decide
theorem test_decode_aa : decode 205 = .aa 5 := by decide
theorem test_decode_mul : decode 320 = .mul 20 := by decide
theorem test_decode_div : decode 401 = .div 1 ∧ decode 498 = .div 98 := by decide
theorem test_decode_sub : decode 521 = .sub 21 := by decide
theorem test_decode_jmp : decode 602 = .jmp 2 ∧ decode 699 = .jmp 99 := by decide
theorem test_decode_jeq : decode 709 = .jeq 9 := by decide
theorem test_decode_jgt : decode 800 = .jgt 0 := by decide
theorem test_decode_jlt : decode 950 = .jlt 50 := by decide
theorem test_decode_pw : decode 1005 = .pw 5 ∧ decode 1020 = .pw 20 := by decide
theorem test_decode_rw : decode 1130 = .rw 30 := by decide
theorem test_decode_stop : decode 1200 = .stop 0 ∧ decode 1237 = .stop 37 ∧ decode 1299 = .stop 99 := by decide
theorem test_decode_unrecognized : decode 1300 = .unrecognized 13 0 ∧ decode 9900 = .unrecognized 99 0 ∧
    decode 0xFFFFFF9C = .unrecognized (-1) 0 ∧ decode 0xFFFFFB4B = .unrecognized (-12) (-5) ∧
    decode 0x7FFFFFFF = .unrecognized 21474836 47 ∧ decode 0x80000000 = .unrecognized (-21474836) (-48) := by decide
theorem test_decode_truncated : decodeBytes [5, 0, 0] = .error .truncated := by rfl
theorem test_decode_table_word : decodeTableWord 32 205 = some (.aa 5) ∧ decodeTableWord 16 1237 = some (.stop 37) := by
  decide
theorem test_encode_table : (encodePair 12 0).toInt = 1200 ∧ (encodePair 1 105).toInt = 205 ∧
    (encodePair 0 (-7)).toInt = -7 ∧ (encodePair 21474837 0).toInt = -2147483596 := by decide

-- Memory -----------------------------------------------------------------------------------------------------------

theorem test_write_keeps_form : ((machine 0 0 [(5, 42), (3, 1000)]).mem.map Prod.fst) = [12, 13, 20] := by decide
theorem test_write_zero_removes : (loadWord (machine 0 0 [(5, 42)]) 5 0).mem = [] := by decide

-- Instructions: 95_test_vectors.md 2.3 to 2.8 ------------------------------------------------------------------------

theorem test_la_whole_word : stepGives (machine 0 0 [(0, 9), (9, 1205)]) (fun t => t.acc.toInt == 1205 && t.pc == 1) := by
  decide
theorem test_la_negative_operand : stepGives (machine 0 7 [(0, -5)]) (fun t => t.rs == .faulted && t.pc == 0 &&
    t.acc.toInt == 7 && t.fr == { kind := .operandOutOfBounds, addr := 0, operand := wrapW (-5) }) := by decide
theorem test_sa_negative_old : stepGives (machine 0 5 [(0, 109), (9, -1205)]) (fun t => (t.word 9).toInt == -1195) := by
  decide
theorem test_sa_wraps : stepGives (machine 0 2147483647 [(0, 109), (9, 100)])
    (fun t => (t.word 9).toInt == -2147483549 && t.acc.toInt == 2147483647) := by decide
theorem test_aa_wraps : stepGives (machine 0 2147483647 [(0, 210), (10, 1)]) (fun t => t.acc.toInt == -2147483648) := by
  decide
theorem test_mul_low_bits : stepGives (machine 0 46341 [(0, 320), (20, 46341)]) (fun t => t.acc.toInt == -2147479015) := by
  decide
theorem test_div_truncates : stepGives (machine 0 (-7) [(0, 430), (30, 2)]) (fun t => t.acc.toInt == -3) := by decide
theorem test_div_least_by_minus_one : stepGives (machine 0 (-2147483648) [(0, 430), (30, -1)])
    (fun t => t.acc.toInt == -2147483648 && t.pc == 1) := by decide
theorem test_sub_order : stepGives (machine 0 3 [(0, 521), (21, 1)]) (fun t => t.acc.toInt == 2) := by decide
theorem test_sub_least : stepGives (machine 0 0 [(0, 521), (21, -2147483648)]) (fun t => t.acc.toInt == -2147483648) := by
  decide
theorem test_jmp_one_past : stepGives (machine 0 0 [(0, 699)]) (fun t => t.pc == 100 && t.rs == .running) := by decide
theorem test_jeq_at_last : stepGives (machine 127 0 [(127, 709)]) (fun t => t.pc == 10 && t.rs == .running) &&
    stepGives (machine 127 1 [(127, 709)]) (fun t => t.pc == 128 && t.fr.kind == .pcOutOfBounds) := by decide
theorem test_jgt_signed : stepGives (machine 4 2147483647 [(4, 800)]) (fun t => t.pc == 1) &&
    stepGives (machine 4 (-2147483648) [(4, 800)]) (fun t => t.pc == 5) := by decide
theorem test_jlt_signed : stepGives (machine 7 (-1) [(7, 950)]) (fun t => t.pc == 51) &&
    stepGives (machine 7 0 [(7, 950)]) (fun t => t.pc == 8) := by decide
theorem test_pw_whole_word : stepGives (machine 5 0 [(5, 1005)]) (fun t => t.events == [.output 1005] && t.pc == 6) := by
  decide
theorem test_rw_issue : stepGives (machine 5 0 [(5, 1105)]) (fun t => t.waiting && t.pc == 5 && t.rs == .running) := by
  decide
theorem test_rw_complete : stepGives (waitingMachine 5 [(5, 1105)] [3])
    (fun t => (t.word 5).toInt == 1103 && !t.waiting && t.pc == 6 && t.inputs == []) := by decide
theorem test_stop_operand_ignored : stepGives (machine 1 0 [(1, 1237)]) (fun t => t.rs == .stopped && t.pc == 2) := by
  decide
theorem test_stop_at_last : stepGives (machine 127 0 [(127, 1200)]) (fun t => t.rs == .faulted && t.pc == 128 &&
    t.fr == { kind := .pcOutOfBounds, addr := 128, operand := 0 }) := by decide
theorem test_unrecognized_at_last : stepGives (machine 127 0 [(127, 1300)]) (fun t =>
    t.events == [.unknownOpcode 127 1300 13] && t.fr.kind == .pcOutOfBounds) := by decide
theorem test_unrecognized_negative : stepGives (machine 0 0 [(0, -100)]) (fun t =>
    t.events == [.unknownOpcode 0 (wrapW (-100)) (-1)] && t.pc == 1 && t.rs == .running) := by decide
theorem test_prefetch_guard : stepGives (machine 200 0 []) (fun t =>
    t.fr == { kind := .pcOutOfBounds, addr := 200, operand := 0 } && t.pc == 200) := by decide

-- The fixed entry points, on numerals --------------------------------------------------------------------------------

theorem test_with_fetch_word : stepGives (State.reset.withFetchWord 32 602) (fun t => t.pc == 3) &&
    stepGives (State.reset.withFetchWord 32 1300) (fun t => t.events == [.unknownOpcode 0 1300 13]) := by decide
theorem test_reset_takes_no_step : stepGives State.reset (fun t => t == State.reset) := by decide

-- The run result: the ends of 95_test_vectors.md W2 (STOP at 1, ACC = 42) and W4 (DIV 1 at 0 by 0), R78 --------------

theorem test_run_result_stopped : stepGives ((machine 1 42 [(1, 1200)]).emit (.output 3)) (fun t =>
    (runResult t).any fun r => r.reason == .stopped && r.record.kind == .none && r.final.acc.toInt == 42 &&
      r.final.pc == 2 && r.final.mem.readWord 1 == 1200 && r.history == [.output 3]) := by decide
theorem test_run_result_faulted : stepGives (machine 0 0 [(0, 401)]) (fun t =>
    (runResult t).any fun r => r.reason == .faulted .divisionByZero && r.record.operand == 1 && r.final.pc == 0 &&
      r.history == []) := by decide

-- Witnesses: for every statement with hypotheses, concrete values that meet them, clause by clause -------------------

theorem witness_DecodeAfterEncode : (Instr.la (-99)).wf = true ∧ (Instr.unrecognized (-21474836) (-48)).wf = true := by
  decide
theorem witness_DecodedDigitRanges : (∃ (w : Word) (k : Int), 0 ≤ k ∧ k ≤ 12 ∧ 100 * k ≤ w.toInt ∧ w.toInt ≤ 100 * k + 99) ∧
    (∃ w : Word, -99 ≤ w.toInt ∧ w.toInt ≤ -1) ∧ (∃ w : Word, 1300 ≤ w.toInt) ∧ (∃ w : Word, w.toInt ≤ -100) :=
  ⟨⟨1299, 12, by decide⟩, ⟨0xFFFFFF9D, by decide⟩, ⟨1300, by decide⟩, ⟨0xFFFFFF9C, by decide⟩⟩
theorem witness_EncodableForCallersOnly : ∃ opcode opd : Int, 0 ≤ opcode ∧ opcode ≤ 12 ∧ 0 ≤ opd ∧ opd ≤ 99 :=
  ⟨12, 99, by decide⟩
theorem witness_LoadAccumulator : (∃ w : Word, -99 ≤ w.toInt ∧ w.toInt ≤ 99) ∧
    (∃ (s : State) (opd : Int), s.pc.toNat < 128 ∧ 0 ≤ opd ∧ opd ≤ 99) ∧
    (∃ (s : State) (opd : Int), s.pc.toNat < 128 ∧ -99 ≤ opd ∧ opd < 0) ∧
    (∃ (i : Instr) (s t : State), i.wf = true ∧ exec i s = .next t ∧ t.fr.kind = .operandOutOfBounds) :=
  ⟨⟨0xFFFFFF9D, by decide⟩, ⟨machine 127 0 [], 99, by decide⟩, ⟨machine 127 0 [], -99, by decide⟩,
    ⟨.la (-1), machine 0 0 [], _, by decide, rfl, rfl⟩⟩
theorem witness_StoreAccumulator : (∃ w : Word, 100 ≤ w.toInt ∧ w.toInt ≤ 199) ∧
    (∃ (s : State) (opd : Int), s.pc.toNat < 128 ∧ 0 ≤ opd ∧ opd ≤ 99) :=
  ⟨⟨199, by decide⟩, ⟨machine 127 5 [(99, 1200)], 99, by decide⟩⟩
theorem witness_WrappingArithmetic : (∃ v w x : Word, (100 * 2 ≤ v.toInt ∧ v.toInt ≤ 100 * 2 + 99) ∧
      (100 * 3 ≤ w.toInt ∧ w.toInt ≤ 100 * 3 + 99) ∧ (100 * 5 ≤ x.toInt ∧ x.toInt ≤ 100 * 5 + 99)) ∧
    (∃ (s : State) (opd : Int), s.pc.toNat < 128 ∧ 0 ≤ opd ∧ opd ≤ 99) :=
  ⟨⟨299, 300, 599, by decide⟩, ⟨machine 127 2147483647 [(0, 1)], 0, by decide⟩⟩
theorem witness_DivideAccumulator : (∃ w : Word, 400 ≤ w.toInt ∧ w.toInt ≤ 499) ∧
    (∃ (s : State) (opd : Int), s.pc.toNat < 128 ∧ 0 ≤ opd ∧ opd ≤ 99 ∧ (s.word opd.toNat).toInt ≠ 0) ∧
    (∃ (s : State) (opd : Int), s.pc.toNat < 128 ∧ 0 ≤ opd ∧ opd ≤ 99 ∧ (s.word opd.toNat).toInt = 0) :=
  ⟨⟨499, by decide⟩, ⟨machine 127 7 [(99, -2)], 99, by decide⟩, ⟨machine 127 7 [], 99, by decide⟩⟩
theorem witness_DivisionTruncatesTowardZero :
    (∃ (s : State) (opd : Int), s.pc.toNat < 128 ∧ 0 ≤ opd ∧ opd ≤ 99 ∧ (s.word opd.toNat).toInt = 0) ∧
    (∃ (s : State) (opd : Int), s.pc.toNat < 128 ∧ 0 ≤ opd ∧ opd ≤ 99 ∧ s.acc.toInt = -2147483648 ∧
      (s.word opd.toNat).toInt = -1) ∧
    (∃ (s : State) (opd : Int), s.pc.toNat < 128 ∧ 0 ≤ opd ∧ opd ≤ 99 ∧ (s.word opd.toNat).toInt ≠ 0 ∧
      ¬ (s.acc.toInt = -2147483648 ∧ (s.word opd.toNat).toInt = -1) ∧ s.acc.toInt ≤ 0) :=
  ⟨⟨machine 0 0 [], 0, by decide⟩, ⟨machine 127 (-2147483648) [(99, -1)], 99, by decide⟩,
    ⟨machine 127 (-2147483648) [(99, 1)], 99, by decide⟩⟩
theorem witness_JumpContinuesOnePast : (∃ w : Word, 600 ≤ w.toInt ∧ w.toInt ≤ 699) ∧
    (∃ (s : State) (opd : Int), s.pc.toNat < 128 ∧ 0 ≤ opd ∧ opd ≤ 99) :=
  ⟨⟨600, by decide⟩, ⟨machine 127 0 [], 99, by decide⟩⟩
theorem witness_ConditionalJumps : (∃ v w x : Word, (100 * 7 ≤ v.toInt ∧ v.toInt ≤ 100 * 7 + 99) ∧
      (100 * 8 ≤ w.toInt ∧ w.toInt ≤ 100 * 8 + 99) ∧ (100 * 9 ≤ x.toInt ∧ x.toInt ≤ 100 * 9 + 99)) ∧
    (∃ (s t u : State) (opd : Int), s.pc.toNat < 128 ∧ t.pc.toNat < 128 ∧ u.pc.toNat < 128 ∧ 0 ≤ opd ∧ opd ≤ 99 ∧
      s.acc.toInt = 0 ∧ 0 < t.acc.toInt ∧ u.acc.toInt < 0) :=
  ⟨⟨799, 800, 999, by decide⟩, ⟨machine 127 0 [], machine 127 1 [], machine 127 (-1) [], 99, by decide⟩⟩
theorem witness_JumpTargetRange :
    (∃ s : State, ReadyToFetch s ∧ 6 ≤ (fetch s).opcode ∧ (fetch s).opcode ≤ 9 ∧ takesJump s = true) ∧
    (∃ s : State, ReadyToFetch s ∧ 6 ≤ (fetch s).opcode ∧ (fetch s).opcode ≤ 9 ∧ takesJump s = false ∧ s.pc.toNat = 127) :=
  ⟨⟨machine 127 0 [(127, 699)], by decide⟩, ⟨machine 127 0 [(127, 999)], by decide⟩⟩
theorem witness_PrintWord : (∃ w : Word, 1000 ≤ w.toInt ∧ w.toInt ≤ 1099) ∧
    (∃ (s : State) (opd : Int), s.pc.toNat < 128 ∧ 0 ≤ opd ∧ opd ≤ 99) :=
  ⟨⟨1099, by decide⟩, ⟨machine 127 0 [(99, -1195)], 99, by decide⟩⟩
theorem witness_ReadWord : (∃ w : Word, 1100 ≤ w.toInt ∧ w.toInt ≤ 1199) ∧
    (∃ (s : State) (opd : Int), 0 ≤ opd ∧ opd ≤ 99 ∧ s.waiting = false) ∧
    (∃ (s : State) (opd : Int), 0 ≤ opd ∧ opd ≤ 99 ∧ s.waiting = true ∧ s.inputs = []) ∧
    (∃ (s : State) (opd : Int) (v : Word) (rest : List Word), s.pc.toNat < 128 ∧ 0 ≤ opd ∧ opd ≤ 99 ∧ s.waiting = true ∧
      s.inputs = v :: rest) :=
  ⟨⟨1100, by decide⟩, ⟨machine 0 0 [], 99, by decide⟩, ⟨waitingMachine 0 [] [], 99, by decide⟩,
    ⟨waitingMachine 127 [(127, 1199)] [12], 99, 12, [], by decide⟩⟩
theorem witness_StopHalts : (∃ w : Word, 1200 ≤ w.toInt ∧ w.toInt ≤ 1299) ∧
    (∃ (s : State) (opd : Int), s.pc.toNat < 128 ∧ 0 ≤ opd ∧ opd ≤ 99 ∧ s.pc.toNat < 127) ∧
    (∃ (s : State) (opd : Int), s.pc.toNat < 128 ∧ 0 ≤ opd ∧ opd ≤ 99 ∧ s.pc.toNat = 127) :=
  ⟨⟨1299, by decide⟩, ⟨machine 126 0 [], 0, by decide⟩, ⟨machine 127 0 [], 99, by decide⟩⟩
theorem witness_UnrecognizedIsReported : (∃ w : Word, 1300 ≤ w.toInt) ∧ (∃ w : Word, w.toInt ≤ -100) ∧
    (∃ s : State, s.pc.toNat < 128) :=
  ⟨⟨1300, by decide⟩, ⟨0x80000000, by decide⟩, ⟨machine 127 0 [], by decide⟩⟩
theorem witness_StepRunsDecodedInstruction : (∃ s : State, ReadyToFetch s) ∧
    (∃ (s : State) (opd : Int), s.hostCmds = [] ∧ s.rs = .running ∧ s.waiting = true ∧ s.pc.toNat < 128 ∧
      decode (s.mem.readWord s.pc.toNat) = .rw opd) ∧
    (∃ (s : State) (rest : List (Option HostCmd)), s.hostCmds = none :: rest) :=
  ⟨⟨machine 127 0 [], by decide⟩, ⟨waitingMachine 127 [(127, 1130)] [12], 30, by decide⟩,
    ⟨(machine 0 0 []).setHostCmds [none], [], by decide⟩⟩
theorem witness_NoStepTaken : (∃ s : State, s.hostCmds = [] ∧ s.rs ≠ .running) ∧
    (∃ s : State, s.hostCmds = [] ∧ s.rs = .running ∧ s.waiting = true ∧ s.inputs = []) :=
  ⟨⟨State.reset, by decide⟩, ⟨waitingMachine 0 [(0, 1130)] [], by decide⟩⟩
theorem witness_PreFetchGuard :
    ∃ s : State, s.hostCmds = [] ∧ s.rs = .running ∧ s.waiting = false ∧ 128 ≤ s.pc.toNat :=
  ⟨machine 128 0 [], by decide⟩
theorem witness_LastAddressNeverStops : ∃ s : State, ReadyToFetch s ∧ s.pc.toNat = 127 := ⟨machine 127 0 [(127, 1200)], by decide⟩
theorem witness_DispatchFaultsArePrecise : ∃ s t : State, s.hostCmds = [] ∧ s.rs = .running ∧ step s = .next t ∧
    t.rs = .faulted ∧ t.fr.kind ≠ .pcOutOfBounds :=
  ⟨machine 127 3 [(127, 498)], (machine 127 3 [(127, 498)]).raise .divisionByZero 127 98, rfl, rfl, rfl, rfl, by decide⟩
theorem witness_PcStaysValidWhileRunning : ∃ s t : State, s.hostCmds = [] ∧ s.rs = .running ∧ s.pc.toNat < 128 ∧
    step s = .next t ∧ t.pc.toNat = 128 :=
  ⟨machine 127 0 [], (machine 127 0 []).advance, rfl, rfl, by decide, rfl, by decide⟩
theorem witness_ReservedRegistersAreInert : ∃ s t : State, s.hostCmds = [] ∧ step s = .next t :=
  ⟨machine 0 7 [(0, 600)], _, rfl, rfl⟩
theorem witness_WritersOfMemoryAndAccumulator :
    (∃ (i : Instr) (s t : State), exec i s = .next t ∧ i.opcode ≠ 1 ∧ i.opcode ≠ 11) ∧
    (∃ (i : Instr) (s t : State), exec i s = .next t ∧ i.opcode ≠ 0 ∧ i.opcode ≠ 2 ∧ i.opcode ≠ 3 ∧ i.opcode ≠ 4 ∧
      i.opcode ≠ 5) :=
  ⟨⟨.la 99, machine 0 0 [], _, rfl, by decide⟩, ⟨.sa 99, machine 0 0 [], _, rfl, by decide⟩⟩
theorem witness_DataAddressesBelowHundred : (∃ (s t : State) (a : Nat), s.hostCmds = [] ∧ step s = .next t ∧ 100 ≤ a ∧ a < 128) ∧
    (∃ s t : State, s.hostCmds = [] ∧ step s = .next t ∧ t.fr.kind = .operandOutOfBounds ∧ s.fr.kind ≠ .operandOutOfBounds) :=
  ⟨⟨State.reset, _, 127, rfl, rfl, by decide⟩,
    ⟨machine 0 0 [(0, -99)], (machine 0 0 [(0, -99)]).raise .operandOutOfBounds 0 (-99), rfl, rfl, rfl, by decide⟩⟩
theorem witness_StoreSeenByNextFetch :
    ∃ s : State, ReadyToFetch s ∧ s.pc.toNat < 99 ∧ fetch s = .sa (s.pc.toNat + 1 : Nat) :=
  ⟨machine 98 7 [(98, 199), (99, 1000)], by decide⟩
theorem witness_StoreKeepsOpcodeDigits : ∃ (s : State) (opd : Int), s.pc.toNat < 128 ∧ 0 ≤ opd ∧ opd ≤ 99 ∧
    0 ≤ s.acc.toInt ∧ s.acc.toInt ≤ 99 ∧ 0 ≤ (s.word opd.toNat).toInt ∧ (s.word opd.toNat).toInt < 2147483600 :=
  ⟨machine 127 99 [(99, 1299)], 99, by decide⟩
theorem witness_HistoryGrowsInProgramOrder :
    (∃ (s t : State) (opd : Int), s.hostCmds = [] ∧ s.rs = .running ∧ s.pc.toNat < 128 ∧ step s = .next t ∧
      s.waiting = false ∧ fetch s = .pw opd) ∧
    (∃ (s t : State) (opcode opd : Int), s.hostCmds = [] ∧ s.rs = .running ∧ s.pc.toNat < 128 ∧ step s = .next t ∧
      s.waiting = false ∧ fetch s = .unrecognized opcode opd) ∧
    (∃ (s t : State) (opd : Int) (v : Word) (rest : List Word), s.hostCmds = [] ∧ s.rs = .running ∧ s.pc.toNat < 128 ∧
      step s = .next t ∧ s.waiting = true ∧ fetch s = .rw opd ∧ s.inputs = v :: rest) :=
  ⟨⟨machine 127 0 [(127, 1099)], _, 99, rfl, rfl, by decide, rfl, rfl, by decide⟩,
    ⟨machine 127 0 [(127, 1300)], _, 13, 0, rfl, rfl, by decide, rfl, rfl, by decide⟩,
    ⟨waitingMachine 127 [(127, 1199)] [12], _, 99, 12, [], rfl, rfl, by decide, rfl, rfl, by decide, rfl⟩⟩
theorem witness_CanonicalMemoryIsUnique : ∃ m n : Memory, m.wf ∧ n.wf ∧ ∀ a : Nat, a < 128 → m.readWord a = n.readWord a :=
  ⟨(machine 0 0 [(5, 42), (3, 1000)]).mem, (machine 0 0 [(3, 1000), (5, 42)]).mem, by decide, by decide, by decide⟩
theorem witness_StepKeepsInvariant : ∃ s t : State, Inv s ∧ step s = .next t :=
  ⟨waitingMachine 127 [(127, 1199)] [12], _, by decide, rfl⟩
theorem witness_ResetCommandInAnyState : (∃ s t : State, RunEnded s ∧ step s = .next t ∧ t.rs ≠ s.rs) ∧
    (∃ (s : State) (rest : List (Option HostCmd)), s.hostCmds = some .reset :: rest) :=
  ⟨⟨((machine 5 5 []).setRs .stopped).setHostCmds [some .reset], State.reset, by decide, rfl, by decide⟩,
    ⟨(waitingMachine 3 [(3, 1130)] []).setHostCmds [some .reset, none], [none], by decide⟩⟩
theorem witness_LoadOnlyInIdle :
    (∃ (s : State) (a : Fin 128) (v : Word) (rest : List (Option HostCmd)),
      s.hostCmds = some (.loadWrite a v) :: rest ∧ s.rs = .idle) ∧
    (∃ (s : State) (c : HostCmd) (rest : List (Option HostCmd)), s.hostCmds = some c :: rest ∧ c ≠ .reset ∧ s.rs ≠ .idle) :=
  ⟨⟨State.reset.setHostCmds [some (.loadWrite 127 1200)], 127, 1200, [], by decide⟩,
    ⟨(machine 0 0 []).setHostCmds [some .start], .start, [], by decide⟩⟩
theorem witness_StartRunsFromLoadedPc :
    (∃ (s : State) (ps : Fin 129) (pc0 : Index8), s.hostCmds = [some (.loadDone ps pc0), some .start] ∧ s.rs = .idle ∧
      s.waiting = false ∧ pc0.toNat < 128) ∧
    (∃ (s : State) (ps : Fin 129) (pc0 : Index8), s.hostCmds = [some (.loadDone ps pc0), some .start] ∧ s.rs = .idle ∧
      s.waiting = false ∧ 128 ≤ pc0.toNat) :=
  ⟨⟨State.reset.setHostCmds [some (.loadDone 128 127), some .start], 128, 127, by decide⟩,
    ⟨State.reset.setHostCmds [some (.loadDone 0 128), some .start], 0, 128, by decide⟩⟩
theorem witness_InspectionShowsState : ∃ s t : State, ReadyToFetch s ∧ (fetch s).opcode = 11 ∧ step s = .next t :=
  ⟨machine 127 0 [(127, 1199)], _, by decide, by decide, rfl⟩
theorem witness_RunResultOfEndedRuns : RunEnded ((machine 1 0 []).setRs .stopped) ∧ RunEnded ((machine 1 0 []).setRs .faulted) ∧
    ¬ RunEnded State.reset := by decide
theorem witness_EndedRunIsImmutable : ∃ s : State, RunEnded s ∧ some HostCmd.reset ∉ s.hostCmds :=
  ⟨((machine 128 7 []).setRs .faulted).setHostCmds [some .start, none, some (.loadWrite 0 1)], by decide⟩
theorem witness_UnansweredReadWaitsForever :
    ∃ s : State, s.hostCmds = [] ∧ s.rs = .running ∧ s.waiting = true ∧ s.inputs = [] :=
  ⟨waitingMachine 127 [(127, 1199)] [], by decide⟩
theorem witness_JumpToItselfLoopsForever :
    ∃ s : State, ReadyToFetch s ∧ fetch s = .jmp ((s.pc.toNat : Int) - 1) ∧ 1 ≤ s.pc.toNat :=
  ⟨machine 100 0 [(100, 699)], by decide⟩

/-- A STOP at once: the run is the ready state, and from then on the stopped one. -/
theorem witness_JumpFreeRunEnds : ∃ s : State, ReadyToFetch s ∧
    ∀ (k : Nat) (u : State), Host.Core.run core k s = .next u → u.rs = .running →
      takesJump u = false ∧ (u.waiting = true → u.inputs ≠ []) := by
  refine ⟨machine 1 0 [(1, 1200)], by decide, fun k u hk hr => ?_⟩
  cases k with
  | zero =>
    cases hk
    decide
  | succ k =>
    exfalso
    have hstep : ∀ n : Nat, Host.Core.run core n ((machine 2 0 [(1, 1200)]).setRs .stopped) =
        .next ((machine 2 0 [(1, 1200)]).setRs .stopped) := by
      intro n
      induction n with
      | zero => rfl
      | succ n ih => exact ih
    have hrun : Host.Core.run core (k + 1) (machine 1 0 [(1, 1200)]) =
        Host.Core.run core k ((machine 2 0 [(1, 1200)]).setRs .stopped) := rfl
    rw [hrun, hstep k] at hk
    cases hk
    cases hr

end Sys2Proof.Tests
end

section
/-! PROOFS. The state and its invariant (spec/10_state.md R20 to R34): what a step keeps of the whole state, what reset
gives every item, what the inspection port and the run result show. -/

namespace Sys2Proof.Machine

variable {s t u : State} {i : Instr} {opd : Int}

/-! What the core never looks at: a core step commutes with replacing the items of `SameInert`. -/

/-- REG[0], REG[1], PS and the host's coming commands are replaced: the items of `SameInert`. -/
def State.setInert (s : State) (x y : Word) (p : Index8) (cs : List (Option HostCmd)) : State :=
  { s with reg0 := x, reg1 := y, ps := p, hostCmds := cs }

section
variable (s) (x y : Word) (p : Index8) (cs : List (Option HostCmd))

@[simp] theorem State.setInert_pc : (s.setInert x y p cs).pc = s.pc := rfl
@[simp] theorem State.setInert_rs : (s.setInert x y p cs).rs = s.rs := rfl
@[simp] theorem State.setInert_waiting : (s.setInert x y p cs).waiting = s.waiting := rfl
@[simp] theorem State.setInert_inputs : (s.setInert x y p cs).inputs = s.inputs := rfl
@[simp] theorem State.setInert_word (a : Nat) : (s.setInert x y p cs).word a = s.word a := rfl
@[simp] theorem State.setInert_fetch : fetch (s.setInert x y p cs) = fetch s := rfl

end

variable {x y : Word} {p : Index8} {cs : List (Option HostCmd)}

/-- The advance of a state that differs in the inert items only. -/
theorem advance_setInert (h : t = u.setInert x y p cs) : t.advance = u.advance.setInert x y p cs := by
  subst h
  unfold State.advance
  rw [State.setInert_pc]
  split <;> rfl

theorem withDataAddress_setInert {f g : Nat → State} (h : ∀ a, f a = (g a).setInert x y p cs) :
    withDataAddress opd (s.setInert x y p cs) f = (withDataAddress opd s g).setInert x y p cs := by
  unfold withDataAddress
  split
  · exact h _
  · rfl

theorem accumulate_setInert (f : Int → Int → Int) :
    accumulate f opd (s.setInert x y p cs) = (accumulate f opd s).setInert x y p cs :=
  withDataAddress_setInert fun _ => advance_setInert rfl

theorem jumpIf_setInert (taken : Bool) :
    jumpIf taken opd (s.setInert x y p cs) = (jumpIf taken opd s).setInert x y p cs := by
  cases taken <;> exact advance_setInert rfl

theorem rwComplete_setInert (a : Nat) :
    rwComplete a (s.setInert x y p cs) = (rwComplete a s).setInert x y p cs := by
  unfold rwComplete
  rw [State.setInert_inputs]
  split
  · rfl
  · exact advance_setInert rfl

/-- The meaning of an instruction neither reads nor writes the inert items (R22, R27, R77). -/
theorem exec_setInert (h : exec i s = .next t) :
    exec i (s.setInert x y p cs) = .next (t.setInert x y p cs) := by
  cases i <;> cases h <;> refine congrArg Host.Outcome.next ?_
  case la | sa | pw => exact withDataAddress_setInert fun _ => advance_setInert rfl
  case aa | mul | sub => exact accumulate_setInert _
  case jmp | jeq | jgt | jlt => exact jumpIf_setInert _
  case unrecognized => exact advance_setInert rfl
  case div =>
    refine withDataAddress_setInert fun a => ?_
    rw [State.setInert_word]
    split
    · rfl
    · exact advance_setInert rfl
  case rw =>
    refine withDataAddress_setInert fun a => ?_
    rw [State.setInert_waiting]
    split
    · exact rwComplete_setInert a
    · rfl
  case stop =>
    rw [advance_setInert rfl, State.setInert_pc]
    unfold stopUnlessFaulted
    split <;> rfl

/-- A step of the core neither reads nor writes the inert items (R80, R77). -/
theorem coreStep_setInert (h : coreStep s = .next t) :
    coreStep (s.setInert x y p cs) = .next (t.setInert x y p cs) := by
  unfold coreStep resumeWait instructionStep at h ⊢
  rw [State.setInert_rs, State.setInert_waiting, State.setInert_fetch, State.setInert_pc]
  split at h
  · split_ifs at h ⊢
    · split at h
      · exact exec_setInert h
      · cases h; rfl
    · exact exec_setInert h
    · cases h; rfl
  all_goals cases h; rfl

/-! The two kinds of boundary at which the host has an entry. -/

/-- A boundary at which the host does nothing uses up its entry and is a step of the core. -/
theorem step_of_still_boundary {rest : List (Option HostCmd)} (h : s.hostCmds = none :: rest) :
    step s = coreStep (s.setHostCmds rest) := by
  simp [step, machineStep, h]

/-- A boundary with a host command uses up its entry and applies the command. -/
theorem step_of_command {c : HostCmd} {rest : List (Option HostCmd)} (h : s.hostCmds = some c :: rest) :
    step s = .next (applyHostCmd c (s.setHostCmds rest)) := by
  simp [step, machineStep, h]

/-! The fault record: which records agree with the run state. -/

/-- A clear fault record is right for a core that has not faulted. -/
theorem recordMatches_of_clear (hr : s.rs ≠ .faulted) (hf : s.fr = FaultRecord.clear) : RecordMatches s := by
  simp [RecordMatches, hf, hr, FaultRecord.clear]

/-- The record of the bound fault is right where PC is past the bank (R123). -/
theorem recordMatches_pcOutOfBounds (hp : 128 ≤ s.pc.toNat) : RecordMatches (s.raise .pcOutOfBounds s.pc 0) := by
  simp [RecordMatches, hp, wrapW]

/-- The record of DivisionByZero is right where PC holds the DIV and its operand names a zero word (R124). -/
theorem recordMatches_divisionByZero (hp : s.pc.toNat < 128) (h0 : 0 ≤ opd) (h1 : opd ≤ 99) (hf : fetch s = .div opd)
    (hz : (s.word opd.toNat).toInt = 0) : RecordMatches (s.raise .divisionByZero s.pc opd) := by
  have hint : (wrapW opd).toInt = opd := wrapW_toInt_of_range (by omega) (by omega)
  have hnat : (wrapW opd).toNat = opd.toNat := by
    rw [wrapW, BitVec.toNat_ofInt]
    omega
  have hculprit : fetch (s.raise .divisionByZero s.pc opd) = .div opd := hf
  have hzero : s.word opd.toNat = 0 := BitVec.eq_of_toInt_eq hz
  simp [RecordMatches, hint, hnat, hp, hculprit, hzero]

/-- The record of OperandOutOfBounds is right where PC holds the LA with a negative operand (R125). -/
theorem recordMatches_operandOutOfBounds (hp : s.pc.toNat < 128) (h0 : -99 ≤ opd) (h1 : opd < 0)
    (hf : fetch s = .la opd) : RecordMatches (s.raise .operandOutOfBounds s.pc opd) := by
  have hint : (wrapW opd).toInt = opd := wrapW_toInt_of_range (by omega) (by omega)
  have hculprit : fetch (s.raise .operandOutOfBounds s.pc opd) = .la opd := hf
  simp only [RecordMatches, State.raise_fr, State.raise_rs, hint, hculprit]
  simp [hp, h1]

/-! The invariant of a core that has not faulted. -/

/-- What the invariant says of a core with run state `r` that has not faulted, but for a wait and for the PC of a
stopped core: above all that the fault record is still clear. -/
structure ClearIn (r : RunState) (s : State) : Prop where
  mem_wf : s.mem.wf
  ps_le : s.ps.toNat ≤ 128
  regs : s.reg0 = 0 ∧ s.reg1 = 0
  rs_eq : s.rs = r
  fr_clear : s.fr = FaultRecord.clear

section
variable {r : RunState}

theorem ClearIn.setPc (h : ClearIn r s) (v : Index8) : ClearIn r (s.setPc v) :=
  ⟨h.mem_wf, h.ps_le, h.regs, h.rs_eq, h.fr_clear⟩

theorem ClearIn.setPs (h : ClearIn r s) {v : Index8} (hv : v.toNat ≤ 128) : ClearIn r (s.setPs v) :=
  ⟨h.mem_wf, hv, h.regs, h.rs_eq, h.fr_clear⟩

theorem ClearIn.setRs (h : ClearIn r s) (q : RunState) : ClearIn q (s.setRs q) :=
  ⟨h.mem_wf, h.ps_le, h.regs, rfl, h.fr_clear⟩

theorem ClearIn.setInputs (h : ClearIn r s) (vs : List Word) : ClearIn r (s.setInputs vs) :=
  ⟨h.mem_wf, h.ps_le, h.regs, h.rs_eq, h.fr_clear⟩

theorem ClearIn.setWaiting (h : ClearIn r s) (b : Bool) : ClearIn r (s.setWaiting b) :=
  ⟨h.mem_wf, h.ps_le, h.regs, h.rs_eq, h.fr_clear⟩

theorem ClearIn.setMem_writeWord (h : ClearIn r s) {a : Nat} (ha : a < 128) (v : Word) :
    ClearIn r (s.setMem (s.mem.writeWord a v)) :=
  ⟨Memory.writeWord_wf h.mem_wf ha v, h.ps_le, h.regs, h.rs_eq, h.fr_clear⟩

/-- Dispatch that raises no fault writes none of these items but memory, and that below the end of the bank. -/
theorem ClearIn.dispatch (h : ClearIn r s) (hu : DispatchEffect s i u) : ClearIn r u := by
  cases hu with
  | store h0 h1 => exact h.setMem_writeWord (by omega) _
  | load | add | mul | sub | div | untaken | output | report =>
    exact ⟨h.mem_wf, h.ps_le, h.regs, h.rs_eq, h.fr_clear⟩

/-- Unless the core has faulted, the invariant says that its fault record is clear (R29). -/
theorem clearIn_of_inv (hi : Inv s) (hr : s.rs = r) (hne : r ≠ .faulted) : ClearIn r s := by
  obtain ⟨hm, hps, hregs, -, ⟨hkind, hnone, -⟩, -⟩ := hi
  have hk := hkind.mpr (hr ▸ hne)
  obtain ⟨ha, ho⟩ := hnone hk
  exact ⟨hm, hps, hregs, hr, by rw [FaultRecord.clear, ← hk, ← ha, ← ho]⟩

/-- A core that has not faulted and does not wait has the invariant, if PC is right in case it stopped. -/
theorem inv_of_clearIn (h : ClearIn r s) (hne : r ≠ .faulted) (hw : s.waiting = false)
    (hstop : r = .stopped → 1 ≤ s.pc.toNat ∧ s.pc.toNat < 128) : Inv s :=
  ⟨h.mem_wf, h.ps_le, h.regs, by simp [WaitsAtRw, hw], recordMatches_of_clear (h.rs_eq ▸ hne) h.fr_clear,
    fun hr => hstop (h.rs_eq.symm.trans hr)⟩

/-- A core that raises a fault with a right record has the invariant, if it does not wait. -/
theorem raise_inv (h : ClearIn r s) (hw : s.waiting = false) {k : FaultKind} {a : Index8}
    (hrec : RecordMatches (s.raise k a opd)) : Inv (s.raise k a opd) :=
  ⟨h.mem_wf, h.ps_le, h.regs, by simp [WaitsAtRw, hw], hrec, by simp⟩

end

/-- Only a running core waits (R30). -/
theorem not_waiting_of_inv (hi : Inv s) (hr : s.rs ≠ .running) : s.waiting = false := by
  obtain ⟨-, -, -, hwait, -⟩ := hi
  exact Bool.eq_false_of_not_eq_true fun hw => hr (hwait hw).1

/-! Every step keeps the invariant: the core's steps, then the host's commands. -/

/-- The advance of a running core that does not wait has the invariant, into the bound fault too (R73, R74). -/
theorem advance_inv (h : ClearIn .running s) (hw : s.waiting = false) (hp : s.pc.toNat < 128) : Inv s.advance := by
  by_cases hl : s.pc.toNat < 127
  · rw [State.advance_of_lt s hl]
    exact inv_of_clearIn (h.setPc _) (by decide) hw (by simp)
  · rw [State.advance_of_last s (by omega)]
    exact raise_inv (h.setPc 128) hw (recordMatches_pcOutOfBounds (by simp))

/-- Every way a ready step ends keeps the invariant. -/
theorem stepEffect_inv (hi : Inv s) (hr : s.rs = .running) (hw : s.waiting = false) (hp : s.pc.toNat < 128)
    (h : StepEffect s t) : Inv t := by
  have hrun := clearIn_of_inv hi hr (by decide)
  cases h with
  | advance hu _ =>
    obtain ⟨hpc, -, -, -, -, -, hwait, -⟩ := hu.keeps
    exact advance_inv (hrun.dispatch hu) (hwait.trans hw) (hpc ▸ hp)
  | @jump opd h0 h1 =>
    have hbase := jumpBase_toNat h0 h1
    exact advance_inv (hrun.setPc _) hw (by rw [State.setPc_pc]; omega)
  | stop _ _ hl =>
    obtain ⟨hpc, -⟩ := advance_advancedFrom hp
    rw [State.advance_of_lt s hl] at hpc ⊢
    exact inv_of_clearIn ((hrun.setPc _).setRs .stopped) (by decide) hw fun _ => by rw [State.setRs_pc]; omega
  | stopAtLast => exact advance_inv hrun hw hp
  | issue _ _ hf =>
    have hop : (fetch s).opcode = 11 := congrArg Instr.opcode hf
    obtain ⟨hm, hps, hregs, -, hrec, hstop⟩ := hi
    exact ⟨hm, hps, hregs, fun _ => ⟨hr, hp, hop⟩, hrec, hstop⟩
  | divisionByZero h0 h1 hf hz => exact raise_inv hrun hw (recordMatches_divisionByZero hp h0 h1 hf hz)
  | operandOutOfBounds h0 h1 hf => exact raise_inv hrun hw (recordMatches_operandOutOfBounds hp h0 h1 hf)

/-- A core step with the host still keeps the invariant. -/
theorem step_inv_of_no_command (hi : Inv s) (hc : s.hostCmds = []) (h : step s = .next t) : Inv t := by
  obtain ⟨u, hu, heff⟩ := core_step_effect hc
  obtain rfl : u = t := by simpa [hu] using h
  obtain rfl | ⟨hr, hw, hp, heff⟩ | ⟨hr, hw, hp, rfl⟩ | ⟨hr, hw, opd, v, rest, h0, h1, hf, -, rfl⟩ := heff
  · exact hi
  · exact stepEffect_inv hi hr hw hp heff
  · exact raise_inv (clearIn_of_inv hi hr (by decide)) hw (recordMatches_pcOutOfBounds hp)
  · have hrun := clearIn_of_inv hi hr (by decide)
    obtain ⟨-, -, -, hwait, -⟩ := hi
    obtain ⟨-, hp, -⟩ := hwait hw
    have hstored : ClearIn .running (s.storeHD opd.toNat v) := hrun.setMem_writeWord (by omega) _
    exact advance_inv ((hstored.setInputs rest).setWaiting false) rfl hp

/-- The invariant speaks of the inert items only by their own bounds. -/
theorem setInert_inv (hi : Inv s) (hregs : x = 0 ∧ y = 0) (hp : p.toNat ≤ 128) : Inv (s.setInert x y p cs) := by
  obtain ⟨hm, -, -, hwait, hrec, hstop⟩ := hi
  exact ⟨hm, hp, hregs, hwait, hrec, hstop⟩

/-- A core step keeps the invariant, whatever the host has yet to do: it is the step with the host still, the inert
items put back. -/
theorem coreStep_inv (hi : Inv s) (h : coreStep s = .next t) : Inv t := by
  have hi' : Inv (s.setHostCmds []) := hi
  obtain ⟨u, hu, -⟩ := core_step_effect (s := s.setHostCmds []) rfl
  have hiu : Inv u := step_inv_of_no_command hi' rfl hu
  rw [step_of_no_command rfl] at hu
  have hback : (s.setHostCmds []).setInert s.reg0 s.reg1 s.ps s.hostCmds = s := rfl
  have hs := coreStep_setInert (x := s.reg0) (y := s.reg1) (p := s.ps) (cs := s.hostCmds) hu
  rw [hback, h] at hs
  cases hs
  obtain ⟨-, hps, hregs, -⟩ := hi
  exact setInert_inv hiu hregs hps

/-- The state after reset has the invariant (R34). -/
theorem reset_inv : Inv State.reset :=
  inv_of_clearIn (r := .idle) ⟨Memory.reset_mem_wf, by decide, ⟨rfl, rfl⟩, rfl, rfl⟩ (by decide) rfl (by simp)

/-- A command that acts in IDLE only keeps the invariant if its effect there has it. -/
theorem whenIdle_inv {e : State} (hi : Inv s) (he : ClearIn .idle s → s.waiting = false → Inv e) :
    Inv (whenIdle s e) := by
  unfold whenIdle
  split
  · next hr => exact he (clearIn_of_inv hi hr (by decide)) (not_waiting_of_inv hi (by simp [hr]))
  · exact hi

/-- A command of the host keeps the invariant: reset begins anew, and the others act in IDLE, where the core has not
faulted and does not wait (R142, R150). -/
theorem applyHostCmd_inv (hi : Inv s) (c : HostCmd) : Inv (applyHostCmd c s) := by
  cases c with
  | reset => exact reset_inv
  | loadWrite a v =>
    exact whenIdle_inv hi fun h hw => inv_of_clearIn (h.setMem_writeWord a.isLt v) (by decide) hw (by simp)
  | loadDone ps pc0 =>
    have hps : (BitVec.ofNat 8 ps.val).toNat ≤ 128 := by rw [BitVec.toNat_ofNat]; omega
    exact whenIdle_inv hi fun h hw => inv_of_clearIn ((h.setPs hps).setPc pc0) (by decide) hw (by simp)
  | start => exact whenIdle_inv hi fun h hw => inv_of_clearIn (h.setRs .running) (by decide) hw (by simp)

/-- Settles O32: a boundary is a step of the core or a command of the host, and each keeps the invariant. -/
theorem stepKeepsInvariant : Obligations.StepKeepsInvariant := by
  intro s t hi h
  cases hc : s.hostCmds with
  | nil => exact step_inv_of_no_command hi hc h
  | cons entry rest =>
    cases entry with
    | none => exact coreStep_inv (s := s.setHostCmds rest) hi (step_of_still_boundary hc ▸ h)
    | some c =>
      rw [step_of_command hc] at h
      cases h
      exact applyHostCmd_inv (s := s.setHostCmds rest) hi c

/-- Settles O33. -/
theorem resetHasInvariant : Obligations.ResetHasInvariant := reset_inv

/-! PC while the core runs. -/

/-- What holds of PC after a step from a valid PC: it is past the bank only in the bound fault (R24, R74). -/
def PcPastBankOnlyFaulted (t : State) : Prop :=
  t.pc.toNat ≤ 128 ∧ (t.rs = .running ∨ t.rs = .stopped → t.pc.toNat < 128) ∧
    (t.pc.toNat = 128 → t.rs = .faulted ∧ t.fr = { kind := .pcOutOfBounds, addr := 128, operand := 0 })

theorem pcPastBankOnlyFaulted_of_lt (h : t.pc.toNat < 128) : PcPastBankOnlyFaulted t :=
  ⟨by omega, fun _ => h, by omega⟩

theorem pcPastBankOnlyFaulted_advance (h : s.pc.toNat < 128) : PcPastBankOnlyFaulted s.advance := by
  obtain ⟨hpc, -, hlast⟩ := advance_advancedFrom h
  refine ⟨by omega, fun hr => ?_, fun hp => hlast (by omega)⟩
  by_contra hp
  obtain ⟨hfault, -⟩ := hlast (by omega)
  simp [hfault] at hr

theorem pcPastBankOnlyFaulted_stepEffect (hp : s.pc.toNat < 128) (h : StepEffect s t) : PcPastBankOnlyFaulted t := by
  cases h with
  | advance hu _ =>
    obtain ⟨hpc, -⟩ := hu.keeps
    exact pcPastBankOnlyFaulted_advance (hpc ▸ hp)
  | @jump opd h0 h1 =>
    have hbase := jumpBase_toNat h0 h1
    exact pcPastBankOnlyFaulted_advance (by rw [State.setPc_pc]; omega)
  | stop _ _ hl =>
    obtain ⟨hpc, -⟩ := advance_advancedFrom hp
    exact pcPastBankOnlyFaulted_of_lt (by rw [State.setRs_pc]; omega)
  | stopAtLast => exact pcPastBankOnlyFaulted_advance hp
  | issue | divisionByZero | operandOutOfBounds => exact pcPastBankOnlyFaulted_of_lt hp

/-- Settles O23: PC moves by an advance only, from itself or from a jump base. -/
theorem pcStaysValidWhileRunning : Obligations.PcStaysValidWhileRunning := by
  intro s t hc _ hp h
  obtain ⟨u, hu, heff⟩ := core_step_effect hc
  obtain rfl : u = t := by simpa [hu] using h
  obtain rfl | ⟨-, -, -, heff⟩ | ⟨-, -, hpast, -⟩ | ⟨-, -, opd, v, rest, -, -, -, -, rfl⟩ := heff
  · exact pcPastBankOnlyFaulted_of_lt hp
  · exact pcPastBankOnlyFaulted_stepEffect hp heff
  · omega
  · exact pcPastBankOnlyFaulted_advance hp

/-! Which instructions write memory and ACC. -/

@[simp] theorem jumpIf_mem (taken : Bool) : (jumpIf taken opd s).mem = s.mem := by
  cases taken <;> exact State.advance_mem _

@[simp] theorem jumpIf_acc (taken : Bool) : (jumpIf taken opd s).acc = s.acc := by
  cases taken <;> exact State.advance_acc _

@[simp] theorem stopUnlessFaulted_mem (b : Bool) : (stopUnlessFaulted b s).mem = s.mem := by
  cases b <;> rfl

@[simp] theorem stopUnlessFaulted_acc (b : Bool) : (stopUnlessFaulted b s).acc = s.acc := by
  cases b <;> rfl

@[simp] theorem rwComplete_acc (a : Nat) : (rwComplete a s).acc = s.acc := by
  unfold rwComplete
  split
  · rfl
  · exact State.advance_acc _

/-- The operand check leaves memory to the effect: the fault does not write it. -/
theorem withDataAddress_mem {f : Nat → State} (h : ∀ a, (f a).mem = s.mem) :
    (withDataAddress opd s f).mem = s.mem :=
  withDataAddress_holds (fun t => t.mem = s.mem) (fun a _ _ => h a) fun _ => rfl

/-- The operand check leaves ACC to the effect: the fault does not write it. -/
theorem withDataAddress_acc {f : Nat → State} (h : ∀ a, (f a).acc = s.acc) :
    (withDataAddress opd s f).acc = s.acc :=
  withDataAddress_holds (fun t => t.acc = s.acc) (fun a _ _ => h a) fun _ => rfl

/-- An instruction other than SA and RW leaves memory as it is. -/
theorem exec_mem (h : exec i s = .next t) (hsa : i.opcode ≠ 1) (hrw : i.opcode ≠ 11) : t.mem = s.mem := by
  cases i <;> cases h
  case sa => exact absurd rfl hsa
  case rw => exact absurd rfl hrw
  case la | aa | mul | sub | pw => exact withDataAddress_mem fun _ => State.advance_mem _
  case div => exact withDataAddress_mem fun a => by split <;> simp
  case jmp | jeq | jgt | jlt => exact jumpIf_mem _
  case stop => simp
  case unrecognized => exact State.advance_mem _

/-- An instruction other than LA, AA, MUL, DIV and SUB leaves ACC as it is. -/
theorem exec_acc (h : exec i s = .next t) (hla : i.opcode ≠ 0) (haa : i.opcode ≠ 2) (hmul : i.opcode ≠ 3)
    (hdiv : i.opcode ≠ 4) (hsub : i.opcode ≠ 5) : t.acc = s.acc := by
  cases i <;> cases h
  case la => exact absurd rfl hla
  case aa => exact absurd rfl haa
  case mul => exact absurd rfl hmul
  case div => exact absurd rfl hdiv
  case sub => exact absurd rfl hsub
  case sa | pw => exact withDataAddress_acc fun _ => State.advance_acc _
  case rw => exact withDataAddress_acc fun a => by split <;> simp [rwIssue]
  case jmp | jeq | jgt | jlt => exact jumpIf_acc _
  case stop => simp
  case unrecognized => exact State.advance_acc _

/-- Settles O26, instruction by instruction. -/
theorem writersOfMemoryAndAccumulator : Obligations.WritersOfMemoryAndAccumulator :=
  fun _ _ _ h => ⟨exec_mem h, exec_acc h⟩

/-! Reset, the inspection port and the run result. -/

/-- Every word of the memory of reset is 0 (R32, R34). -/
@[simp] theorem reset_word (a : Nat) : State.reset.word a = 0 := rfl

/-- Settles O34. -/
theorem resetValues : Obligations.ResetValues :=
  ⟨rfl, rfl, rfl, rfl, rfl, fun a _ => by simp, rfl, rfl, rfl⟩

/-- A fetched instruction is the one its opcode and operand name (R57, R61). -/
theorem fetch_eq_instrOf (s : State) : fetch s = instrOf (fetch s).opcode (fetch s).operand := by
  simp [fetch, decode]

/-- A fetched instruction with opcode 11 is an RW. -/
theorem fetch_eq_rw (h : (fetch s).opcode = 11) : fetch s = .rw (fetch s).operand := by
  conv_lhs => rw [fetch_eq_instrOf, h]
  rfl

/-- A ready step at an RW is the RW-issue (R111). -/
theorem step_of_ready_rw (hready : ReadyToFetch s) (h : (fetch s).opcode = 11) : step s = .next (rwIssue s) := by
  have hf := fetch_eq_rw h
  obtain ⟨h0, h1⟩ := operand_range (wf_of_fetch hf)
  rw [step_of_ready hready, hf, exec, execRw, withDataAddress_of_range h0 (by omega)]
  obtain ⟨-, -, hw, -⟩ := hready
  simp [hw]

/-- The inspection port shows RW-issue in WAITING only (R30). -/
theorem inspect_rwIssue {item : InspectItem} (h : item ≠ .waiting) : inspect item (rwIssue s) = inspect item s := by
  cases item with
  | waiting => exact absurd rfl h
  | _ => rfl

/-- Settles O39. -/
theorem inspectionShowsState : Obligations.InspectionShowsState := by
  refine ⟨fun _ => rfl, fun _ _ => rfl, fun s t hready hop h => ?_⟩
  rw [step_of_ready_rw hready hop] at h
  cases h
  exact ⟨rfl, fun _ => inspect_rwIssue⟩

/-- A run that has a termination reason presents it with FR, the final state and the history (R78, R141). -/
theorem runResult_of_reason {r : TerminationReason} (h : terminationReason s = some r) :
    runResult s = some { reason := r, record := s.fr, final := archState s, history := s.events } := by
  simp [runResult, h]

/-- An ended run has the termination reason its RS and FR say (R78). -/
theorem terminationReason_of_ended (h : RunEnded s) : ∃ r, terminationReason s = some r ∧
    (s.rs = .stopped → r = .stopped) ∧ (s.rs = .faulted → r = .faulted s.fr.kind) := by
  obtain hr | hr := h
  · exact ⟨.stopped, by simp [terminationReason, hr], fun _ => rfl, by simp [hr]⟩
  · exact ⟨.faulted s.fr.kind, by simp [terminationReason, hr], by simp [hr], fun _ => rfl⟩

/-- A run that has not ended has no termination reason. -/
theorem terminationReason_of_not_ended (h : ¬ RunEnded s) : terminationReason s = none := by
  cases hr : s.rs with
  | idle | running => simp [terminationReason, hr]
  | stopped => exact absurd (.inl hr) h
  | faulted => exact absurd (.inr hr) h

/-- Settles O40. -/
theorem runResultOfEndedRuns : Obligations.RunResultOfEndedRuns := by
  refine fun s => ⟨fun hended => ?_, fun h => by simp [runResult, terminationReason_of_not_ended h]⟩
  obtain ⟨r, hreason, hstopped, hfaulted⟩ := terminationReason_of_ended hended
  exact ⟨_, runResult_of_reason hreason, hstopped, hfaulted, by simp [State.word]⟩

end Sys2Proof.Machine
end

section
/-! PROOFS. Memory (spec/20_memory.md R44 to R54): which words a core step can write, which instruction can name an
address outside the bank, and what the fetch and the decoder see of a word that SA has stored. -/

namespace Sys2Proof.Machine

variable {s t u : State} {i : Instr} {opd : Int} {a : Nat}

/-! What a core step cannot reach: the words above the two-digit addresses, and the fault of a data address. -/

/-- Dispatch writes no word above the two-digit addresses (R47). -/
theorem DispatchEffect.word_of_high (h : DispatchEffect s i u) (ha : 100 ≤ a) : u.word a = s.word a := by
  cases h with
  | store h0 h1 => exact storeHD_word_of_ne _ (by omega)
  | load | add | mul | sub | div | untaken | output | report => rfl

/-- A ready step writes no word above the two-digit addresses (R47). -/
theorem StepEffect.word_of_high (h : StepEffect s t) (ha : 100 ≤ a) : t.word a = s.word a := by
  cases h with
  | advance hu _ => exact (State.advance_word _ a).trans (hu.word_of_high ha)
  | jump | stop | stopAtLast => exact State.advance_word _ a
  | issue | divisionByZero | operandOutOfBounds => rfl

/-- The fault that an advance can record is the bound fault, so OperandOutOfBounds was there before it (R74). -/
theorem operandOutOfBounds_of_advance (h : s.advance.fr.kind = .operandOutOfBounds) :
    s.fr.kind = .operandOutOfBounds := by
  unfold State.advance at h
  split at h
  · exact h
  · cases h

/-- A ready step that newly records OperandOutOfBounds is an LA with a negative operand (R47, R125). -/
theorem StepEffect.la_of_operandOutOfBounds (h : StepEffect s t) (ht : t.fr.kind = .operandOutOfBounds)
    (hs : s.fr.kind ≠ .operandOutOfBounds) : ∃ opd : Int, fetch s = .la opd ∧ -99 ≤ opd ∧ opd ≤ -1 := by
  cases h with
  | @operandOutOfBounds opd h0 h1 hf => exact ⟨opd, hf, h0, by omega⟩
  | advance hu _ =>
    obtain ⟨-, -, hfr, -⟩ := hu.keeps
    exact absurd (hfr ▸ operandOutOfBounds_of_advance ht) hs
  | jump | stop | stopAtLast => exact absurd (operandOutOfBounds_of_advance ht) hs
  | issue => exact absurd ht hs
  | divisionByZero => cases ht

/-- Settles O27: a step stays as it is, runs an instruction, raises the bound fault or completes an RW. -/
theorem dataAddressesBelowHundred : Obligations.DataAddressesBelowHundred := by
  intro s t hc h
  obtain ⟨u, hu, heff⟩ := core_step_effect hc
  obtain rfl : u = t := by simpa [hu] using h
  obtain rfl | ⟨-, -, -, heff⟩ | ⟨-, -, -, rfl⟩ | ⟨-, -, opd, v, rest, -, h1, -, -, rfl⟩ := heff
  · exact ⟨fun _ _ _ => rfl, fun ht hs => absurd ht hs⟩
  · exact ⟨fun _ ha _ => heff.word_of_high ha, heff.la_of_operandOutOfBounds⟩
  · exact ⟨fun _ _ _ => rfl, fun ht _ => by cases ht⟩
  · refine ⟨fun a ha _ => ?_, fun ht hs => absurd (operandOutOfBounds_of_advance ht) hs⟩
    calc (((s.storeHD opd.toNat v).setInputs rest).setWaiting false).advance.word a
        = (s.storeHD opd.toNat v).word a := State.advance_word _ a
      _ = s.word a := storeHD_word_of_ne v (by omega)

/-! What SA stores. -/

/-- SA with its operand in range is the store of ACC and the advance (R86). -/
theorem exec_sa_of_range (h0 : 0 ≤ opd) (h1 : opd < 128) :
    exec (.sa opd) s = .next (s.storeHD opd.toNat s.acc).advance := by
  rw [exec, execSa, withDataAddress_of_range h0 h1]

/-- The hundreds that a store keeps are the opcode digits (R44, R57). -/
theorem highDigits_eq (w : Word) : highDigits w = w.toInt.tdiv 100 * 100 := rfl

/-- The advance of a ready state below the last address is ready again, one address on. -/
theorem readyToFetch_advance (h : ReadyToFetch s) (hp : s.pc.toNat < 127) :
    ReadyToFetch s.advance ∧ s.advance.pc.toNat = s.pc.toNat + 1 := by
  obtain ⟨hc, hr, hw, hlt⟩ := h
  obtain ⟨hpc, hnext, -⟩ := advance_advancedFrom hlt
  obtain ⟨hrs, -⟩ := hnext (by omega)
  exact ⟨⟨by simpa using hc, hrs.trans hr, by simpa using hw, by omega⟩, by omega⟩

/-- Settles O28: the store leaves the state ready, and the next fetch reads the word it wrote. -/
theorem storeSeenByNextFetch : Obligations.StoreSeenByNextFetch := by
  intro s hready hp hf
  have hstored : ReadyToFetch (s.storeHD (s.pc.toNat + 1) s.acc) := hready
  obtain ⟨hnext, hpc⟩ := readyToFetch_advance hstored (by rw [State.storeHD_pc]; omega)
  refine ⟨(s.storeHD (s.pc.toNat + 1) s.acc).advance, ?_, ?_⟩
  · rw [step_of_ready hready, hf, exec_sa_of_range (by omega) (by omega), Int.toNat_natCast]
  · rw [step_of_ready hnext, fetch, hpc, State.storeHD_pc, State.advance_word, storeHD_word_same, highDigits_eq]

/-- Decode gives back the digit groups of a packed non-negative value that is a word (R57, R58). -/
theorem decodeFields_wrapW {q r : Int} (hq : 0 ≤ q) (h0 : 0 ≤ r) (h1 : r ≤ 99) (hfit : q * 100 + r < 2147483648) :
    decodeFields (wrapW (q * 100 + r)) = (q, r) := by
  obtain ⟨hdiv, hmod⟩ := digits_unique (.inl ⟨hq, h0, h1⟩)
  rw [decodeFields, wrapW_toInt_of_range (by omega) hfit]
  exact Prod.ext hdiv hmod

/-- Settles O29: the stored value packs the old opcode and ACC, and is too small to wrap. -/
theorem storeKeepsOpcodeDigits : Obligations.StoreKeepsOpcodeDigits := by
  intro s opd _ h0 h1 hacc0 hacc1 hw0 hw1
  refine ⟨_, exec_sa_of_range h0 (by omega), ?_⟩
  obtain ⟨hsum, hpos, -⟩ := digits_spec (s.word opd.toNat).toInt
  obtain ⟨hr0, -, hq⟩ := hpos hw0
  rw [State.advance_word, storeHD_word_same, highDigits_eq, Int.add_comm]
  exact decodeFields_wrapW hq hacc0 hacc1 (by omega)

end Sys2Proof.Machine
end

section
/-! PROOFS. The codec (spec/30_encoding.md R55 to R63): Decode and Encode are inverse, which digit groups each word has;
and the image that a load leaves (spec/70_reset_and_hazards.md R151, R152, R155). -/

namespace Sys2Proof

variable {w : Word} {i : Instr}

/-! The digit groups of a word. -/

/-- Two numbers can stand side by side as the digit groups of a word: the operand has at most two digits and the sign of
the opcode (R57, R59). -/
def DigitGroups (opcode opd : Int) : Prop :=
  (0 ≤ opcode ∧ 0 ≤ opd ∧ opd ≤ 99) ∨ (opcode ≤ 0 ∧ -99 ≤ opd ∧ opd ≤ 0)

/-- Decode gives the digit groups that make the word up (R57). -/
theorem decodeFields_of_digitGroups {q r : Int} (hsum : w.toInt = q * 100 + r) (h : DigitGroups q r) :
    decodeFields w = (q, r) := by
  obtain ⟨hdiv, hmod⟩ := digits_unique h
  rw [decodeFields, hsum]
  exact Prod.ext hdiv hmod

/-- Settles O4: in each range the digit groups are the word's own quotient and remainder, of the word's sign. -/
theorem decodedDigitRanges : Obligations.DecodedDigitRanges := by
  intro w
  obtain ⟨hsum, hpos, hneg⟩ := digits_spec w.toInt
  obtain ⟨hmin, hmax⟩ := word_range w
  refine ⟨fun k h0 _ hlo hhi => ?_, fun hlo hhi => ?_, fun hlo => ?_, fun hhi => ?_⟩
  · exact decodeFields_of_digitGroups (by omega) (.inl (by omega))
  · exact decodeFields_of_digitGroups (by omega) (.inr (by omega))
  · obtain ⟨hr0, hr1, hq⟩ := hpos (by omega)
    simp only [decodeFields, Config.packBase]
    omega
  · obtain ⟨hr0, hr1, hq⟩ := hneg (by omega)
    simp only [decodeFields, Config.packBase]
    omega

/-! Encode after Decode. -/

/-- The digit groups of a word, packed again, are the word (R57, R58). -/
theorem encodePair_decodeFields (w : Word) : encodePair (decodeFields w).1 (decodeFields w).2 = w := by
  have hsum : w.toInt.tdiv 100 * 100 + w.toInt.tmod 100 = w.toInt := Int.tdiv_mul_add_tmod w.toInt 100
  rw [encodePair, decodeFields, hsum, wrapW_of_toInt]

/-- Settles O2: the opcode map keeps both digit groups. -/
theorem encodeAfterDecode : Obligations.EncodeAfterDecode := by
  intro w
  rw [encode, decode, instrOf_opcode, instrOf_operand, encodePair_decodeFields]

/-! Decode after Encode. -/

/-- A well-formed instruction is the one its opcode and operand name: what `unrecognized` carries is no recognized
opcode (R61, R63). -/
theorem instrOf_of_wf (h : i.wf = true) : instrOf i.opcode i.operand = i := by
  cases i with
  | unrecognized opcode opd =>
    simp only [Instr.wf, opcodeUnrecognized, Bool.and_eq_true, decide_eq_true_eq] at h
    obtain ⟨⟨hopcode, -⟩, -⟩ := h
    exact instrOf_of_unrecognized hopcode opd
  | _ => rfl

/-- The opcode and operand of a well-formed instruction are digit groups: only LA's operand, beside an opcode that shows
no sign, and that of a negative opcode may be negative (R59). -/
theorem digitGroups_of_wf (h : i.wf = true) : DigitGroups i.opcode i.operand := by
  unfold DigitGroups
  cases i with
  | la opd =>
    simp only [Instr.wf, laOperandOk, decide_eq_true_eq] at h
    simp only [Instr.opcode, Instr.operand]
    omega
  | unrecognized opcode opd =>
    simp only [Instr.wf, opcodeUnrecognized, digitsAgree, Bool.and_eq_true, decide_eq_true_eq] at h
    obtain ⟨⟨hopcode, hpos, hneg⟩, -⟩ := h
    simp only [Instr.opcode, Instr.operand]
    omega
  | _ => exact .inl ⟨by simp [Instr.opcode], of_decide_eq_true h⟩

/-- The word of a well-formed instruction has the packed value, instruction by instruction (R58, R59). -/
theorem encode_toInt (h : i.wf = true) : (encode i).toInt = i.opcode * 100 + i.operand := by
  cases i with
  | la opd => exact Laws.PackedValue.la opd h
  | sa opd => exact Laws.PackedValue.sa opd h
  | aa opd => exact Laws.PackedValue.aa opd h
  | mul opd => exact Laws.PackedValue.mul opd h
  | div opd => exact Laws.PackedValue.div opd h
  | sub opd => exact Laws.PackedValue.sub opd h
  | jmp opd => exact Laws.PackedValue.jmp opd h
  | jeq opd => exact Laws.PackedValue.jeq opd h
  | jgt opd => exact Laws.PackedValue.jgt opd h
  | jlt opd => exact Laws.PackedValue.jlt opd h
  | pw opd => exact Laws.PackedValue.pw opd h
  | rw opd => exact Laws.PackedValue.rw opd h
  | stop opd => exact Laws.PackedValue.stop opd h
  | unrecognized opcode opd => exact Laws.PackedValue.unrecognized opcode opd h

/-- Decoding the word of a well-formed instruction gives the instruction back (R57, R58, R61). -/
theorem decode_encode (h : i.wf = true) : decode (encode i) = i := by
  rw [decode, decodeFields_of_digitGroups (encode_toInt h) (digitGroups_of_wf h), instrOf_of_wf h]

/-- What the decoder makes of the bytes of an instruction and any bytes after them is what it makes of the word. -/
theorem decodeBytes_encodeBytes (i : Instr) (rest : List Byte) :
    decodeBytes (encodeBytes i ++ rest) = .ok (decode (encode i), rest) := by
  simp [encodeBytes, bytesOfWord, decodeBytes]

/-- Settles O1: the word holds the instruction's own digit groups, and the bytes hold the word. -/
theorem decodeAfterEncode : Obligations.DecodeAfterEncode := by
  refine fun i h => ⟨decode_encode h, fun rest => ?_⟩
  rw [decodeBytes_encodeBytes, decode_encode h]

/-- Settles O3. -/
theorem specWordsDecode : Obligations.SpecWordsDecode := by
  unfold Obligations.SpecWordsDecode
  decide

/-! Pairs that collide. -/

/-- A hundred in the operand is one in the opcode (R60). -/
theorem encodePair_add_hundred (opcode opd : Int) : encodePair opcode (opd + 100) = encodePair (opcode + 1) opd := by
  have hsum : opcode * 100 + (opd + 100) = (opcode + 1) * 100 + opd := by omega
  rw [encodePair, encodePair, hsum]

/-- Settles O5: the callers' pairs are digit groups that fit a word, and the colliding pair is the word of AA 5. -/
theorem encodableForCallersOnly : Obligations.EncodableForCallersOnly := by
  have hcollide : encodePair 1 105 = encode (.aa 5) := encodePair_add_hundred 1 5
  refine ⟨fun opcode opd h0 h1 h2 h3 => ?_, encodePair_add_hundred, hcollide, ?_, fun v => ?_⟩
  · exact Machine.decodeFields_wrapW h0 h2 h3 (by omega)
  · rw [hcollide, decode_encode (by decide)]
  · rw [encodePair, Int.zero_mul, Int.zero_add, wrapW_of_toInt]

end Sys2Proof

namespace Sys2Proof.Machine

variable {s t : State}

/-! A run of host commands. -/

/-- The host's commands applied in order, with no core step between them. -/
def applyHostCmds (cs : List HostCmd) (s : State) : State := cs.foldl (fun u c => applyHostCmd c u) s

theorem applyHostCmds_append (cs ds : List HostCmd) (s : State) :
    applyHostCmds (cs ++ ds) s = applyHostCmds ds (applyHostCmds cs s) := List.foldl_append

theorem whenIdle_setHostCmds (s e : State) (cs : List (Option HostCmd)) :
    whenIdle (s.setHostCmds cs) (e.setHostCmds cs) = (whenIdle s e).setHostCmds cs := by
  rw [whenIdle, whenIdle, State.setHostCmds_rs, apply_ite (State.setHostCmds · cs)]

/-- No command looks at the commands still to come, or changes them (R142, R150). -/
theorem applyHostCmd_setHostCmds (c : HostCmd) (s : State) (cs : List (Option HostCmd)) :
    applyHostCmd c (s.setHostCmds cs) = (applyHostCmd c s).setHostCmds cs := by
  cases c with
  | reset => rfl
  | loadWrite a v => exact whenIdle_setHostCmds s (loadWord s a.val v) cs
  | loadDone ps pc0 => exact whenIdle_setHostCmds s ((s.setPs (BitVec.ofNat 8 ps.val)).setPc pc0) cs
  | start => exact whenIdle_setHostCmds s (s.setRs .running) cs

/-- A run whose first step has a next state goes on from there. -/
theorem run_succ_of_step (h : step s = .next t) (k : Nat) :
    Host.Core.run core (k + 1) s = Host.Core.run core k t := by
  have hcore : core.step s = .next t := h
  simp only [Host.Core.run, hcore]

/-- A run with a command at every boundary applies the commands in order. -/
theorem run_hostCmds (cs : List HostCmd) (s : State) :
    Host.Core.run core cs.length (s.setHostCmds (cs.map some)) = .next ((applyHostCmds cs s).setHostCmds []) := by
  induction cs generalizing s with
  | nil => rfl
  | cons c cs ih =>
    have hstep : step (s.setHostCmds ((c :: cs).map some)) =
        .next ((applyHostCmd c s).setHostCmds (cs.map some)) := by
      rw [← applyHostCmd_setHostCmds]
      exact step_of_command rfl
    exact (run_succ_of_step hstep cs.length).trans (ih (applyHostCmd c s))

/-! The image that a load leaves. -/

/-- In IDLE the load writes from address `a` on set the words there, up to the end of the bank or of the list,
and change nothing else (R151). -/
theorem applyHostCmds_loadWrites (ws : List Word) (a : Nat) (hr : s.rs = .idle) :
    ∃ m, applyHostCmds (loadWrites a ws) s = s.setMem m ∧ (∀ b, b < a → m.readWord b = s.word b) ∧
      ∀ k, a + k < 128 → m.readWord (a + k) = ws[k]?.getD (s.word (a + k)) := by
  induction ws generalizing a s with
  | nil => exact ⟨s.mem, rfl, fun _ _ => rfl, fun _ _ => rfl⟩
  | cons w ws ih =>
    unfold loadWrites
    split
    · next ha =>
      have hwrite : applyHostCmd (.loadWrite ⟨a, ha⟩ w) s = loadWord s a w := if_pos hr
      obtain ⟨m, hm, hbelow, hfrom⟩ := ih (s := loadWord s a w) (a + 1) hr
      refine ⟨m, ?_, fun b hb => ?_, fun k hk => ?_⟩
      · rw [applyHostCmds, List.foldl_cons, hwrite]
        exact hm
      · rw [hbelow b (by omega), loadWord_word_of_ne w (by omega)]
      · cases k with
        | zero => exact (hbelow a (by omega)).trans (loadWord_word_same a w)
        | succ k =>
          have hk' : a + (k + 1) = a + 1 + k := by omega
          rw [hk', hfrom k (by omega), loadWord_word_of_ne w (by omega), List.getElem?_cons_succ]
    · exact ⟨s.mem, rfl, fun _ _ => rfl, fun k hk => by omega⟩

/-- In IDLE, load done and start set PS, PC and RS (R142, R152, R154). -/
theorem applyHostCmds_loadDone_start (ps : Fin 129) (pc0 : Index8) (hr : s.rs = .idle) :
    applyHostCmds [.loadDone ps pc0, .start] s = ((s.setPs (BitVec.ofNat 8 ps.val)).setPc pc0).setRs .running := by
  simp [applyHostCmds, applyHostCmd, whenIdle, hr]

/-- Settles O38: the run applies the boot commands to the reset state, the load writes leave the image, and load done
and start the rest. -/
theorem loaderContract : Obligations.LoaderContract := by
  intro lines pc0
  obtain ⟨m, hload, -, himage⟩ := applyHostCmds_loadWrites (s := State.reset)
    (lines.map fun l => encodePair l.1 l.2) 0 rfl
  have hboot : applyHostCmds (bootCmds lines pc0) State.reset = (((State.reset.setMem m).setPs
      (BitVec.ofNat 8 (min lines.length 128))).setPc pc0).setRs .running := by
    rw [bootCmds, applyHostCmds_append, hload]
    exact applyHostCmds_loadDone_start (programSize lines.length) pc0 rfl
  have hrun := run_hostCmds (bootCmds lines pc0) State.reset
  rw [hboot] at hrun
  refine ⟨_, hrun, fun a ha => ?_, rfl⟩
  have hword := himage a (by omega)
  rw [Nat.zero_add, reset_word, List.getElem?_map] at hword
  refine hword.trans ?_
  cases lines[a]? <;> rfl

end Sys2Proof.Machine
end

section
/-! PROOFS. The execution cycle (spec/40_execution_cycle.md R70 to R80): what a step runs and when none is taken, what
it can do at the last address, which registers it never looks at, and the runs that wait, loop or end. -/

namespace Sys2Proof.Machine

variable {s t u : State} {i : Instr} {opd : Int} {n : Nat}

/-! The registers and the host's list, which a core step neither writes nor reads. -/

/-- A core step leaves the inert items as they are: replacing them by themselves changes neither end of the step. -/
theorem coreStep_sameInert (h : coreStep s = .next t) : SameInert s t := by
  have hself := coreStep_setInert (x := s.reg0) (y := s.reg1) (p := s.ps) (cs := s.hostCmds) h
  have hs : s.setInert s.reg0 s.reg1 s.ps s.hostCmds = s := rfl
  rw [hs, h] at hself
  injection hself with ht
  rw [ht]
  exact ⟨rfl, rfl, rfl, rfl⟩

/-- A core step does not depend on what the host has yet to do (R77). -/
theorem coreStep_setHostCmds (h : coreStep s = .next t) (cs : List (Option HostCmd)) :
    coreStep (s.setHostCmds cs) = .next (t.setHostCmds cs) := by
  obtain ⟨hreg0, hreg1, hps, -⟩ := coreStep_sameInert h
  have ht : t.setHostCmds cs = t.setInert s.reg0 s.reg1 s.ps cs := by
    rw [← hreg0, ← hreg1, ← hps]
    rfl
  rw [ht]
  exact coreStep_setInert h

/-- Settles O25: a core step commutes with replacing the inert items, by themselves or by any others. -/
theorem reservedRegistersAreInert : Obligations.ReservedRegistersAreInert := by
  refine ⟨fun s t hc h => ?_, fun s x y p hc => ?_⟩
  · rw [step_of_no_command hc] at h
    obtain ⟨hreg0, hreg1, hps, -⟩ := coreStep_sameInert h
    exact ⟨hreg0, hreg1, hps⟩
  · obtain ⟨t, ht, -⟩ := core_step_effect hc
    refine ⟨t, ht, ?_⟩
    rw [step_of_no_command hc] at ht
    obtain ⟨-, -, -, hcmds⟩ := coreStep_sameInert ht
    calc step { s with reg0 := x, reg1 := y, ps := p }
        = coreStep (s.setInert x y p s.hostCmds) := step_of_no_command hc
      _ = .next (t.setInert x y p s.hostCmds) := coreStep_setInert ht
      _ = .next { t with reg0 := x, reg1 := y, ps := p } := by rw [← hcmds]; rfl

/-! When a step is taken, and what it runs. -/

/-- Settles O18. -/
theorem stepRunsDecodedInstruction : Obligations.StepRunsDecodedInstruction := by
  refine ⟨fun _ h => step_of_ready h, fun s opd hc hr hw _ hd => ?_, fun s rest hc => ?_⟩
  · have hf : fetch s = .rw opd := hd
    rw [step_of_waiting hc hr hw, resumeWait, hf]
  · obtain ⟨t, ht, -⟩ := core_step_effect (s := s.setHostCmds []) rfl
    refine ⟨t, ht, ?_⟩
    rw [step_of_no_command rfl] at ht
    rw [step_of_still_boundary hc]
    exact coreStep_setHostCmds ht rest

/-- Settles O19: a waiting core stays as it is or completes its RW. -/
theorem noStepTaken : Obligations.NoStepTaken := by
  refine ⟨fun _ => step_of_not_running, fun s hc hr hw => ?_⟩
  obtain ⟨hs, -⟩ | ⟨opd, v, rest, -, -, hf, hin, hs⟩ := waiting_step_effect hc hr hw
  · exact ⟨s, hs, .inl rfl, fun _ => rfl⟩
  · exact ⟨_, hs, .inr ⟨opd, v, hf, by simpa using hin, by simp⟩, by simp [hin]⟩

/-- Settles O20. -/
theorem preFetchGuard : Obligations.PreFetchGuard := fun _ => step_past_bank

/-! Where a jump lands, and the last address. -/

/-- Dispatch that raises no fault leaves a ready state ready for the advance. -/
theorem DispatchEffect.ready (h : DispatchEffect s i u) (hready : ReadyToFetch s) : ReadyToFetch u := by
  obtain ⟨hpc, hrs, -, -, -, -, hwait, -, hcmds⟩ := h.keeps
  rwa [ReadyToFetch, hpc, hrs, hwait, hcmds]

/-- A taken jump leaves the core ready one past its operand, below the last address (R100, R104). -/
theorem readyToFetch_jump (hready : ReadyToFetch s) (h0 : 0 ≤ opd) (h1 : opd ≤ 99) :
    ReadyToFetch (s.setPc (jumpBase opd)).advance ∧
      ((s.setPc (jumpBase opd)).advance.pc.toNat : Int) = opd + 1 := by
  obtain ⟨hc, hr, hw, -⟩ := hready
  have hbase := jumpBase_toNat h0 h1
  have hjumped : ReadyToFetch (s.setPc (jumpBase opd)) := ⟨hc, hr, hw, by rw [State.setPc_pc]; omega⟩
  obtain ⟨hnext, hpc⟩ := readyToFetch_advance hjumped (by rw [State.setPc_pc]; omega)
  exact ⟨hnext, by rw [hpc, State.setPc_pc]; omega⟩

/-- Past the last address lies the bound fault (R74). -/
theorem advance_faulted_of_last (h : s.pc.toNat = 127) : s.advance.pc.toNat = 128 ∧ s.advance.rs = .faulted ∧
    s.advance.fr = { kind := .pcOutOfBounds, addr := 128, operand := 0 } := by
  rw [State.advance_of_last s h]
  exact ⟨rfl, rfl, rfl⟩

/-- Settles O21, by the ways a ready step ends: every advance that is not a jump's leaves the bank. -/
theorem lastAddressNeverStops : Obligations.LastAddressNeverStops := by
  intro s hready hp
  obtain ⟨t, hs, heff⟩ := step_effect hready
  refine ⟨t, hs, ?_⟩
  have haddr : s.pc = 127 := BitVec.eq_of_toNat_eq hp
  cases heff with
  | advance hu hj =>
    obtain ⟨hpc, -⟩ := hu.keeps
    obtain ⟨hpast, hrs, hfr⟩ := advance_faulted_of_last (hpc ▸ hp)
    exact .inl ⟨hpast, hrs, hfr, hj⟩
  | stopAtLast _ hj =>
    obtain ⟨hpast, hrs, hfr⟩ := advance_faulted_of_last hp
    exact .inl ⟨hpast, hrs, hfr, hj⟩
  | stop _ _ hl => omega
  | divisionByZero => exact .inr (.inl ⟨hp, rfl, haddr, .inl rfl⟩)
  | operandOutOfBounds => exact .inr (.inl ⟨hp, rfl, haddr, .inr rfl⟩)
  | jump h0 h1 _ _ _ hj =>
    obtain ⟨⟨-, hrs, -⟩, hpc⟩ := readyToFetch_jump hready h0 h1
    exact .inr (.inr (.inl ⟨hj, hrs, by omega, by omega⟩))
  | issue _ _ hf => exact .inr (.inr (.inr ⟨congrArg Instr.opcode hf, rfl⟩))

/-! Runs that go nowhere: a wait without an answer, a jump to itself. -/

/-- A state that is its own next state is the end of every run from it. -/
theorem run_of_step_self (h : step s = .next s) (k : Nat) : Host.Core.run core k s = .next s := by
  induction k with
  | zero => rfl
  | succ k ih => rw [run_succ_of_step h, ih]

/-- Without an input to come a waiting core stays as it is (R111; log 5). -/
theorem step_self_of_unanswered (hc : s.hostCmds = []) (hr : s.rs = .running) (hw : s.waiting = true)
    (hin : s.inputs = []) : step s = .next s := by
  obtain ⟨hs, -⟩ | ⟨opd, v, rest, -, -, -, hcons, -⟩ := waiting_step_effect hc hr hw
  · exact hs
  · simp [hin] at hcons

/-- Settles O42. -/
theorem unansweredReadWaitsForever : Obligations.UnansweredReadWaitsForever :=
  fun k _ hc hr hw hin => run_of_step_self (step_self_of_unanswered hc hr hw hin) k

/-- A jump to the address before its own leaves the whole state as it is (R100). -/
theorem step_self_of_jump_to_itself (hready : ReadyToFetch s) (hf : fetch s = .jmp ((s.pc.toNat : Int) - 1)) :
    step s = .next s := by
  obtain ⟨h0, h1⟩ := operand_range (wf_of_fetch hf)
  have hbase := jumpBase_toNat h0 h1
  have hone : (1 : Index8).toNat = 1 := rfl
  have hback : jumpBase ((s.pc.toNat : Int) - 1) + 1 = s.pc :=
    BitVec.eq_of_toNat_eq (by rw [BitVec.toNat_add, hone]; omega)
  rw [step_of_ready hready, hf]
  refine congrArg Host.Outcome.next ?_
  calc jumpIf true ((s.pc.toNat : Int) - 1) s
      = (s.setPc (jumpBase ((s.pc.toNat : Int) - 1))).advance := rfl
    _ = s.setPc (jumpBase ((s.pc.toNat : Int) - 1) + 1) :=
        State.advance_of_lt _ (by rw [State.setPc_pc]; omega)
    _ = s := by rw [hback]; rfl

/-- Settles O43. -/
theorem jumpToItselfLoopsForever : Obligations.JumpToItselfLoopsForever :=
  fun k _ hready hf _ => run_of_step_self (step_self_of_jump_to_itself hready hf) k

/-! The end of a run without jumps: every transition brings it nearer. -/

/-- The transitions that a run without taken jumps has at most before it ends: two for each address from PC on, the
issue and the completion of an RW, of which a waiting core has taken the first (R79, R111). -/
def transitionsLeft (s : State) : Nat := 2 * (128 - s.pc.toNat) - s.waiting.toNat

theorem transitionsLeft_of_ready (h : ReadyToFetch s) : transitionsLeft s = 2 * (128 - s.pc.toNat) := by
  obtain ⟨-, -, hw, -⟩ := h
  simp [transitionsLeft, hw]

theorem transitionsLeft_of_waiting (h : s.waiting = true) : transitionsLeft s = 2 * (128 - s.pc.toNat) - 1 := by
  simp [transitionsLeft, h]

/-- A run that has not ended, and has at most `n` transitions left. -/
structure UnderWay (n : Nat) (s : State) : Prop where
  running : s.rs = .running
  pc_lt : s.pc.toNat < 128
  waits : WaitsAtRw s
  left_le : transitionsLeft s ≤ n

theorem underWay_of_ready (h : ReadyToFetch s) (hn : 2 * (128 - s.pc.toNat) ≤ n) : UnderWay n s := by
  have hleft := transitionsLeft_of_ready h
  obtain ⟨-, hr, hw, hp⟩ := h
  exact ⟨hr, hp, by simp [WaitsAtRw, hw], hleft ▸ hn⟩

/-- The advance ends the run in the bound fault or leaves it under way, two transitions nearer its end. -/
theorem advance_ended_or_underWay (h : ReadyToFetch s) (hn : 2 * (128 - s.pc.toNat) ≤ n + 2) :
    RunEnded s.advance ∨ UnderWay n s.advance := by
  by_cases hl : s.pc.toNat < 127
  · obtain ⟨hnext, hpc⟩ := readyToFetch_advance h hl
    exact .inr (underWay_of_ready hnext (by omega))
  · obtain ⟨-, -, -, hp⟩ := h
    obtain ⟨-, hrs, -⟩ := advance_faulted_of_last (s := s) (by omega)
    exact .inl (.inr hrs)

/-- A ready step that takes no jump ends the run or brings it nearer its end: it advances, issues an RW, stops or
faults. -/
theorem StepEffect.ended_or_underWay (h : StepEffect s t) (hready : ReadyToFetch s) (hj : takesJump s = false)
    (hn : 2 * (128 - s.pc.toNat) ≤ n + 1) : RunEnded t ∨ UnderWay n t := by
  cases h with
  | advance hu _ =>
    obtain ⟨hpc, -⟩ := hu.keeps
    exact advance_ended_or_underWay (hu.ready hready) (by rw [hpc]; omega)
  | stopAtLast => exact advance_ended_or_underWay hready (by omega)
  | jump _ _ _ _ _ htaken => simp [hj] at htaken
  | stop => exact .inl (.inl rfl)
  | divisionByZero | operandOutOfBounds => exact .inl (.inr rfl)
  | issue _ _ hf =>
    obtain ⟨-, hr, -, hp⟩ := hready
    have hop : (fetch s).opcode = 11 := congrArg Instr.opcode hf
    have hleft : transitionsLeft (s.setWaiting true) = 2 * (128 - s.pc.toNat) - 1 := transitionsLeft_of_waiting rfl
    exact .inr ⟨hr, hp, fun _ => ⟨hr, hp, hop⟩, by omega⟩

/-- A transition of a run under way ends it or brings it nearer its end, if it takes no jump and a wait is answered. -/
theorem step_ended_or_underWay (hc : s.hostCmds = []) (h : UnderWay (n + 1) s) (hj : takesJump s = false)
    (hin : s.waiting = true → s.inputs ≠ []) : ∃ t, step s = .next t ∧ (RunEnded t ∨ UnderWay n t) := by
  obtain ⟨hr, hp, hwaits, hleft⟩ := h
  cases hw : s.waiting with
  | false =>
    have hready : ReadyToFetch s := ⟨hc, hr, hw, hp⟩
    obtain ⟨t, hs, heff⟩ := step_effect hready
    exact ⟨t, hs, heff.ended_or_underWay hready hj (transitionsLeft_of_ready hready ▸ hleft)⟩
  | true =>
    obtain ⟨-, -, hop⟩ := hwaits hw
    obtain ⟨-, hempty | hother⟩ | ⟨opd, v, rest, -, -, -, -, hs⟩ := waiting_step_effect hc hr hw
    · exact absurd hempty (hin hw)
    · exact absurd (fetch_eq_rw hop) (hother _)
    · have hstored : ReadyToFetch (((s.storeHD opd.toNat v).setInputs rest).setWaiting false) := ⟨hc, hr, rfl, hp⟩
      rw [transitionsLeft_of_waiting hw] at hleft
      exact ⟨_, hs, advance_ended_or_underWay hstored (show 2 * (128 - s.pc.toNat) ≤ n + 2 by omega)⟩

/-- An ended run stays as it is (R70; log 5). -/
theorem step_self_of_ended (hc : s.hostCmds = []) (h : RunEnded s) : step s = .next s :=
  step_of_not_running hc fun hr => by simp [RunEnded, hr] at h

/-- No state of the run from `s` takes a jump, or waits for an input that does not come. -/
def JumpFreeAndAnswered (s : State) : Prop :=
  ∀ (k : Nat) (u : State), Host.Core.run core k s = .next u → u.rs = .running →
    takesJump u = false ∧ (u.waiting = true → u.inputs ≠ [])

theorem JumpFreeAndAnswered.next (h : JumpFreeAndAnswered s) (hs : step s = .next t) : JumpFreeAndAnswered t :=
  fun k u hk => h (k + 1) u ((run_succ_of_step hs k).trans hk)

/-- A run with at most `n` transitions left has ended after `n`, if it takes no jump and its waits are answered. -/
theorem run_ended_of_underWay (hc : s.hostCmds = []) (hfree : JumpFreeAndAnswered s)
    (h : RunEnded s ∨ UnderWay n s) : ∃ u, Host.Core.run core n s = .next u ∧ RunEnded u := by
  induction n generalizing s with
  | zero =>
    obtain hended | ⟨-, hp, -, hleft⟩ := h
    · exact ⟨s, rfl, hended⟩
    · have hwait := s.waiting.toNat_le
      unfold transitionsLeft at hleft
      omega
  | succ n ih =>
    obtain hended | hway := h
    · exact ⟨s, run_of_step_self (step_self_of_ended hc hended) _, hended⟩
    · obtain ⟨hj, hin⟩ := hfree 0 s rfl hway.running
      obtain ⟨t, hs, ht⟩ := step_ended_or_underWay hc hway hj hin
      obtain ⟨-, -, -, hcmds⟩ := coreStep_sameInert (step_of_no_command hc ▸ hs)
      rw [run_succ_of_step hs]
      exact ih (hcmds.trans hc) (hfree.next hs) ht

/-- Settles O44: every transition brings the run nearer its end. -/
theorem jumpFreeRunEnds : Obligations.JumpFreeRunEnds := by
  intro s hready hfree
  have hc : s.hostCmds = [] := hready.1
  exact run_ended_of_underWay hc hfree (.inr (underWay_of_ready hready (Nat.le_refl _)))

end Sys2Proof.Machine
end

section
/-! PROOFS. Load and store (spec/41_load_store.md R85, R86): what LA and SA do to the state, and that no other
instruction raises the fault of a data address. -/

namespace Sys2Proof.Machine

variable {s t u : State} {i : Instr} {opd : Int}

/-! The frame of the advance and of a fault raised in dispatch. -/

theorem advance_sameMemory (s : State) : SameMemory s s.advance := fun k => by rw [State.advance_mem]

theorem advance_sameInert (s : State) : SameInert s s.advance :=
  ⟨s.advance_reg0, s.advance_reg1, s.advance_ps, s.advance_hostCmds⟩

theorem advance_sameIo (s : State) : SameIo s s.advance :=
  ⟨s.advance_events, s.advance_inputs, s.advance_waiting⟩

/-- Raising a fault at PC writes FR and RS and nothing else, and FR.operand shows an operand that fits a word (R125). -/
theorem raise_faultedInDispatch (s : State) (kind : FaultKind) (h0 : -2147483648 ≤ opd) (h1 : opd < 2147483648) :
    FaultedInDispatch kind opd s (s.raise kind s.pc opd) :=
  ⟨rfl, rfl, rfl, wrapW_toInt_of_range h0 h1, rfl, rfl, fun _ => rfl, ⟨rfl, rfl, rfl, rfl⟩, rfl, rfl, rfl⟩

/-! LA with its operand in range and below it. -/

/-- LA with its operand in range is the load of ACC and the advance (R85). -/
theorem exec_la_of_range (h0 : 0 ≤ opd) (h1 : opd < 128) :
    exec (.la opd) s = .next (s.setAcc (s.word opd.toNat)).advance := by
  rw [exec, execLa, withDataAddress_of_range h0 h1]

/-- LA with a negative operand is the fault and nothing else (R85, R125). -/
theorem exec_la_of_neg (h : opd < 0) : exec (.la opd) s = .next (s.raise .operandOutOfBounds s.pc opd) := by
  rw [exec, execLa, withDataAddress_of_neg h]

/-! Who raises OperandOutOfBounds: where it was not recorded before, neither an effect at an address in range and the
advance after it, nor a jump, a stop or the completion of an RW records it. -/

/-- The advance after an effect that leaves FR alone records no OperandOutOfBounds (R74). -/
theorem operandOutOfBounds_of_advance_of_fr (h : u.advance.fr.kind = .operandOutOfBounds) (hfr : u.fr = s.fr) :
    s.fr.kind = .operandOutOfBounds :=
  hfr ▸ operandOutOfBounds_of_advance h

/-- A data-addressing instruction with a two-digit operand raises OperandOutOfBounds in its effect or not at all. -/
theorem operandOutOfBounds_of_withDataAddress {f : Nat → State} (hwf : operandOk opd = true)
    (h : (withDataAddress opd s f).fr.kind = .operandOutOfBounds)
    (hf : ∀ a, (f a).fr.kind = .operandOutOfBounds → s.fr.kind = .operandOutOfBounds) :
    s.fr.kind = .operandOutOfBounds := by
  obtain ⟨h0, h1⟩ := operand_range hwf
  rw [withDataAddress_of_range h0 (by omega)] at h
  exact hf _ h

theorem operandOutOfBounds_of_jumpIf {taken : Bool} (h : (jumpIf taken opd s).fr.kind = .operandOutOfBounds) :
    s.fr.kind = .operandOutOfBounds := by
  cases taken <;> exact operandOutOfBounds_of_advance_of_fr h rfl

@[simp] theorem stopUnlessFaulted_fr (b : Bool) : (stopUnlessFaulted b s).fr = s.fr := by
  cases b <;> rfl

theorem operandOutOfBounds_of_rwComplete {a : Nat} (h : (rwComplete a s).fr.kind = .operandOutOfBounds) :
    s.fr.kind = .operandOutOfBounds := by
  unfold rwComplete at h
  split at h
  · exact h
  · exact operandOutOfBounds_of_advance_of_fr h rfl

/-- A well-formed instruction other than LA does not raise OperandOutOfBounds (R47, R85). -/
theorem operandOutOfBounds_of_exec (hwf : i.wf = true) (hla : i.opcode ≠ 0) (h : exec i s = .next t)
    (ht : t.fr.kind = .operandOutOfBounds) : s.fr.kind = .operandOutOfBounds := by
  cases i <;> cases h
  case la => exact absurd rfl hla
  case sa | aa | mul | sub | pw =>
    exact operandOutOfBounds_of_withDataAddress hwf ht fun _ ha => operandOutOfBounds_of_advance_of_fr ha rfl
  case div =>
    refine operandOutOfBounds_of_withDataAddress hwf ht fun a ha => ?_
    split at ha
    · cases ha
    · exact operandOutOfBounds_of_advance_of_fr ha rfl
  case rw =>
    refine operandOutOfBounds_of_withDataAddress hwf ht fun a ha => ?_
    split at ha
    · exact operandOutOfBounds_of_rwComplete ha
    · exact ha
  case jmp | jeq | jgt | jlt => exact operandOutOfBounds_of_jumpIf ht
  case stop =>
    rw [stopUnlessFaulted_fr] at ht
    exact operandOutOfBounds_of_advance ht
  case unrecognized => exact operandOutOfBounds_of_advance_of_fr ht rfl

/-- A word decodes to the instruction that its digit groups name (R57, R61). -/
theorem decode_of_digitGroups {w : Word} {q r : Int} (hsum : w.toInt = q * 100 + r) (h : DigitGroups q r) :
    decode w = instrOf q r := by
  rw [decode, decodeFields_of_digitGroups hsum h]

/-- Settles O6: the words decode by their digit groups, LA loads and advances or raises the fault, and no other
instruction raises it. -/
theorem loadAccumulator : Obligations.LoadAccumulator := by
  refine ⟨fun w hlo hhi => ?_, fun s opd hp h0 h1 => ?_, fun s opd _ hlo hneg => ?_, fun i s t hwf h ht => ?_⟩
  · have hdigits : DigitGroups 0 w.toInt := by unfold DigitGroups; omega
    exact decode_of_digitGroups (by omega) hdigits
  · exact ⟨_, exec_la_of_range h0 (by omega), State.advance_acc _,
      advance_advancedFrom (s := s.setAcc (s.word opd.toNat)) hp, advance_sameMemory _, advance_sameInert _,
      advance_sameIo _⟩
  · exact ⟨_, exec_la_of_neg hneg, raise_faultedInDispatch s _ (by omega) (by omega)⟩
  · exact or_iff_not_imp_right.mpr fun hla => operandOutOfBounds_of_exec hwf hla h ht

/-! SA. -/

/-- A store leaves every byte outside the word at its address alone (R44). -/
theorem storeHD_sameMemoryBut (a : Nat) (v : Word) : SameMemoryBut a s (s.storeHD a v) :=
  fun k hk => Memory.readByte_writeWord_of_outside s.mem a k _ hk

/-- The value that a store writes is the exact sum with the hundreds of the old word, wrapped (R44). -/
theorem storeHD_word_same_toInt (a : Nat) (v : Word) :
    ((s.storeHD a v).word a).toInt = (v.toInt + (s.word a).toInt.tdiv 100 * 100).bmod (2 ^ 32) := by
  rw [storeHD_word_same, wrapW_toInt, highDigits_eq]

/-- Settles O7: the words decode by their digit groups, and SA is the store and the advance. -/
theorem storeAccumulator : Obligations.StoreAccumulator := by
  refine ⟨fun w hlo hhi => ?_, fun s opd hp h0 h1 => ?_⟩
  · exact decode_of_digitGroups (q := 1) (by omega) (.inl (by omega))
  · have hkept := advance_sameMemory (s.storeHD opd.toNat s.acc)
    refine ⟨opd.toNat, _, dataAddress_of_range h0 (by omega), by omega, exec_sa_of_range h0 (by omega), ?_,
      fun k hk => (hkept k).trans (storeHD_sameMemoryBut _ _ k hk), State.advance_acc _,
      advance_advancedFrom (s := s.storeHD opd.toNat s.acc) hp, advance_sameInert _, advance_sameIo _⟩
    rw [State.advance_word, storeHD_word_same_toInt]

end Sys2Proof.Machine
end

section
/-! PROOFS. Arithmetic (spec/42_arithmetic.md R90 to R95): AA, MUL, SUB and DIV write a wrapped result to ACC and
advance, and the quotient of DIV is the one that its remainder determines. -/

namespace Sys2Proof.Machine

variable {s : State} {i : Instr} {opd : Int}

/-! What the four instructions share: their words, and the frame of a result written to ACC. -/

/-- A word in the hundred of an opcode is the instruction of that opcode with the word's last two digits (R59, R61). -/
theorem decode_of_hundred {w : Word} {op : Int} (hop : 0 ≤ op) (hlo : 100 * op ≤ w.toInt)
    (hhi : w.toInt ≤ 100 * op + 99) : decode w = instrOf op (w.toInt - 100 * op) :=
  decode_of_digitGroups (by omega) (.inl (by omega))

/-- An instruction that wraps a result into ACC and advances does that and nothing else (R90). -/
theorem accumulates_of_exec {v : Int} (hp : s.pc.toNat < 128) (h : exec i s = .next (s.setAcc (wrapW v)).advance) :
    ∃ t, exec i s = .next t ∧ t.acc.toInt = v.bmod (2 ^ 32) ∧ AdvancedFrom s.pc.toNat s t ∧
      SameMemory s t ∧ SameInert s t ∧ SameIo s t :=
  ⟨_, h, by rw [State.advance_acc, State.setAcc_acc, wrapW_toInt],
    advance_advancedFrom (s := s.setAcc (wrapW v)) hp, advance_sameMemory _, advance_sameInert _, advance_sameIo _⟩

/-! AA, MUL and SUB. -/

/-- With its operand in range, `accumulate` writes the wrapped result of ACC and the word there, and advances (R90). -/
theorem accumulate_of_range (f : Int → Int → Int) (h0 : 0 ≤ opd) (h1 : opd < 128) :
    accumulate f opd s = (s.setAcc (wrapW (f s.acc.toInt (s.word opd.toNat).toInt))).advance := by
  rw [accumulate, withDataAddress_of_range h0 h1]

/-- An instruction whose meaning is `accumulate f` accumulates by `f`, on every word of its opcode's hundred (R90). -/
theorem accumulatesBy_of_exec {mk : Int → Instr} {op : Int} {f : Int → Int → Int} (hop : 0 ≤ op)
    (hmk : ∀ opd, instrOf op opd = mk opd) (hexec : ∀ opd s, exec (mk opd) s = .next (accumulate f opd s)) :
    AccumulatesBy mk op f := by
  refine ⟨fun w hlo hhi => ?_, fun s opd hp h0 h1 => ?_⟩
  · rw [decode_of_hundred hop hlo hhi, hmk]
  · exact accumulates_of_exec hp (by rw [hexec, accumulate_of_range f h0 (by omega)])

/-- Settles O8: each of the three is `accumulate` of its operation. -/
theorem wrappingArithmetic : Obligations.WrappingArithmetic :=
  ⟨accumulatesBy_of_exec (by decide) (fun _ => rfl) fun _ _ => rfl,
    accumulatesBy_of_exec (by decide) (fun _ => rfl) fun _ _ => rfl,
    accumulatesBy_of_exec (by decide) (fun _ => rfl) fun _ _ => rfl⟩

/-! DIV. -/

/-- DIV by a non-zero word writes the wrapped quotient to ACC and advances (R93). -/
theorem exec_div_of_ne_zero (h0 : 0 ≤ opd) (h1 : opd < 128) (hd : (s.word opd.toNat).toInt ≠ 0) :
    exec (.div opd) s = .next (s.setAcc (wrapW (s.acc.toInt.tdiv (s.word opd.toNat).toInt))).advance := by
  rw [exec, execDiv, withDataAddress_of_range h0 h1, if_neg hd]

/-- DIV by a zero word is the fault and nothing else (R93, R124). -/
theorem exec_div_of_zero (h0 : 0 ≤ opd) (h1 : opd < 128) (hd : (s.word opd.toNat).toInt = 0) :
    exec (.div opd) s = .next (s.raise .divisionByZero s.pc opd) := by
  rw [exec, execDiv, withDataAddress_of_range h0 h1, if_pos hd]

/-- Settles O9: the words decode by their digit groups, and DIV writes its quotient or raises the fault. -/
theorem divideAccumulator : Obligations.DivideAccumulator := by
  refine ⟨fun w hlo hhi => ?_, fun s opd hp h0 h1 hd => ?_, fun s opd _ h0 h1 hd => ?_⟩
  · exact decode_of_hundred (op := 4) (by decide) hlo hhi
  · exact accumulates_of_exec hp (exec_div_of_ne_zero h0 (by omega) hd)
  · exact ⟨_, exec_div_of_zero h0 (by omega) hd, raise_faultedInDispatch s _ (by omega) (by omega)⟩

/-! The quotient and its remainder. -/

/-- The remainder of `x` by `d` that goes with the quotient `q`: smaller than the divisor, and of the dividend's sign or
zero (R95). -/
def TruncatedRemainder (x d q r : Int) : Prop :=
  x = d * q + r ∧ r.natAbs < d.natAbs ∧ (0 ≤ x → 0 ≤ r) ∧ (x ≤ 0 → r ≤ 0)

/-- The remainder of the truncated quotient (R95). -/
theorem truncatedRemainder_tmod (x : Int) {d : Int} (hd : d ≠ 0) :
    TruncatedRemainder x d (x.tdiv d) (x.tmod d) := by
  have hsum := Int.mul_tdiv_add_tmod x d
  have hsmall : (x.tmod d).natAbs < d.natAbs := by
    rw [Int.natAbs_tmod]
    exact Nat.mod_lt _ (Int.natAbs_pos.mpr hd)
  refine ⟨hsum.symm, hsmall, fun hx => Int.tmod_nonneg d hx, fun hx => ?_⟩
  have hneg := Int.tmod_nonneg d (a := -x) (by omega)
  rw [Int.neg_tmod] at hneg
  omega

/-- The quotient of two words is a word, but for -2147483648 by -1: it is no larger than the dividend, and 2147483648
is reached by that pair only (R95). -/
theorem tdiv_range_of_no_overflow (a b : Word) (hb : b.toInt ≠ 0)
    (hover : ¬ (a.toInt = -2147483648 ∧ b.toInt = -1)) :
    -2147483648 ≤ a.toInt.tdiv b.toInt ∧ a.toInt.tdiv b.toInt < 2147483648 := by
  obtain ⟨hmin, hmax⟩ := word_range a
  have hsize : (a.toInt.tdiv b.toInt).natAbs ≤ a.toInt.natAbs := Int.natAbs_tdiv_le_natAbs _ _
  refine ⟨by omega, lt_of_le_of_ne (by omega) fun htop => ?_⟩
  obtain ⟨hsum, hsmall, -, hneg⟩ := truncatedRemainder_tmod a.toInt hb
  rw [htop] at hsum hsize
  omega

/-- Settles O10: a zero divisor faults, -2147483648 by -1 wraps around, and any other quotient is a word, so ACC holds
it exactly. -/
theorem divisionTruncatesTowardZero : Obligations.DivisionTruncatesTowardZero := by
  intro s opd hp h0 h1
  by_cases hd : (s.word opd.toNat).toInt = 0
  · exact ⟨_, exec_div_of_zero h0 (by omega) hd, fun _ => ⟨rfl, rfl, rfl⟩, fun _ hone => by omega,
      fun hne => absurd hd hne⟩
  · obtain ⟨t, hexec, hacc, -⟩ := accumulates_of_exec hp (exec_div_of_ne_zero h0 (by omega) hd)
    refine ⟨t, hexec, fun hz => absurd hz hd, fun hmin hone => ?_, fun _ hover => ?_⟩
    · rw [hacc, hmin, hone]
      decide
    · obtain ⟨hlo, hhi⟩ := tdiv_range_of_no_overflow s.acc _ hd hover
      rw [hacc, Int.bmod_eq_of_le (by omega) (by omega)]
      exact ⟨_, truncatedRemainder_tmod _ hd⟩

end Sys2Proof.Machine
end

section
/-! PROOFS. Control transfer (spec/43_control_transfer.md R100 to R104): the four jumps are `jumpIf` of their own
condition, which advances from the operand or from the jump's own address and changes nothing else. -/

namespace Sys2Proof.Machine

variable {s : State} {opd : Int} {taken : Bool}

/-! What a jump does to the state. -/

/-- A taken jump advances from its operand, wherever the jump itself stands (R100, R104). -/
theorem jumpIf_advancedFrom_of_taken (h0 : 0 ≤ opd) (h1 : opd ≤ 99) (hj : taken = true) :
    AdvancedFrom opd s (jumpIf taken opd s) := by
  subst hj
  have hbase := jumpBase_toNat h0 h1
  have hadv : AdvancedFrom (jumpBase opd).toNat s (s.setPc (jumpBase opd)).advance :=
    advance_advancedFrom (s := s.setPc (jumpBase opd)) (by rw [State.setPc_pc]; omega)
  rwa [hbase] at hadv

/-- A jump that is not taken advances from its own address (R101 to R104). -/
theorem jumpIf_advancedFrom_of_untaken (hp : s.pc.toNat < 128) (hj : taken = false) :
    AdvancedFrom s.pc.toNat s (jumpIf taken opd s) := by
  subst hj
  exact advance_advancedFrom hp

theorem jumpIf_sameMemory (s : State) : SameMemory s (jumpIf taken opd s) := fun k => by rw [jumpIf_mem]

theorem jumpIf_sameInert (s : State) : SameInert s (jumpIf taken opd s) := by
  cases taken
  · exact advance_sameInert s
  · exact advance_sameInert (s.setPc (jumpBase opd))

theorem jumpIf_sameIo (s : State) : SameIo s (jumpIf taken opd s) := by
  cases taken
  · exact advance_sameIo s
  · exact advance_sameIo (s.setPc (jumpBase opd))

/-! The step of a fetched jump. -/

/-- A step that fetches a jump is `jumpIf` of the jump's own condition and operand (R100 to R103). -/
theorem step_of_ready_jump (hready : ReadyToFetch s) (h6 : 6 ≤ (fetch s).opcode) (h9 : (fetch s).opcode ≤ 9) :
    step s = .next (jumpIf (takesJump s) (fetch s).operand s) := by
  have hf := fetch_eq_instrOf s
  rw [step_of_ready hready]
  unfold takesJump
  obtain hop | hop | hop | hop : (fetch s).opcode = 6 ∨ (fetch s).opcode = 7 ∨ (fetch s).opcode = 8 ∨
      (fetch s).opcode = 9 := by omega
  all_goals
    rw [hop] at hf
    generalize (fetch s).operand = opd at hf ⊢
    rw [hf]
    rfl

/-- A fetched jump has a two-digit operand (R59, R104). -/
theorem jump_operand_range (h6 : 6 ≤ (fetch s).opcode) : 0 ≤ (fetch s).operand ∧ (fetch s).operand ≤ 99 := by
  obtain ⟨-, h0, h1⟩ | ⟨hneg, -⟩ := digitGroups_of_wf (fetch_wf s)
  · exact ⟨h0, h1⟩
  · omega

/-- Settles O13: a taken jump advances from an operand far below the last address, the other from its own address. -/
theorem jumpTargetRange : Obligations.JumpTargetRange := by
  intro s hready h6 h9
  obtain ⟨h0, h1⟩ := jump_operand_range h6
  have hstep := step_of_ready_jump hready h6 h9
  obtain ⟨-, hr, -, hp⟩ := hready
  refine ⟨_, hstep, fun hj => ?_, fun hj => ?_⟩
  · obtain ⟨hpc, hin, -⟩ := jumpIf_advancedFrom_of_taken (s := s) h0 h1 hj
    obtain ⟨hrs, -⟩ := hin (by omega)
    exact ⟨hpc, by omega, by omega, hrs.trans hr⟩
  · obtain ⟨hpc, hin, hlast⟩ := jumpIf_advancedFrom_of_untaken (opd := (fetch s).operand) hp hj
    refine ⟨by omega, fun hfault => ?_, fun hl => (hlast (by omega)).1⟩
    by_contra hl
    obtain ⟨hrs, -⟩ := hin (by omega)
    simp [hrs, hr] at hfault

/-! JMP and the conditional jumps. -/

/-- An instruction whose meaning is `jumpIf` of a test of ACC jumps on that condition, on every word of its opcode's
hundred (R100 to R103). -/
theorem jumpsIf_of_exec {mk : Int → Instr} {op : Int} {cond : Int → Prop} {test : State → Bool} (hop : 0 ≤ op)
    (hmk : ∀ opd, instrOf op opd = mk opd) (hexec : ∀ opd s, exec (mk opd) s = .next (jumpIf (test s) opd s))
    (htest : ∀ s, test s = true ↔ cond s.acc.toInt) : JumpsIf mk op cond := by
  refine ⟨fun w hlo hhi => ?_, fun s opd hp h0 h1 => ?_⟩
  · rw [decode_of_hundred hop hlo hhi, hmk]
  · refine ⟨_, hexec opd s, fun hc => ?_, fun hc => ?_, jumpIf_acc _, jumpIf_sameMemory s, jumpIf_sameInert s,
      jumpIf_sameIo s⟩
    · exact jumpIf_advancedFrom_of_taken h0 h1 ((htest s).mpr hc)
    · exact jumpIf_advancedFrom_of_untaken hp (Bool.eq_false_iff.mpr fun ht => hc ((htest s).mp ht))

/-- Settles O11: JMP is the jump whose condition always holds. -/
theorem jumpContinuesOnePast : Obligations.JumpContinuesOnePast := by
  obtain ⟨hdecode, hjump⟩ : JumpsIf .jmp 6 (fun _ => True) :=
    jumpsIf_of_exec (test := fun _ => true) (by decide) (fun _ => rfl) (fun _ _ => rfl) fun _ => iff_of_true rfl trivial
  refine ⟨hdecode, fun s opd hp h0 h1 => ?_⟩
  obtain ⟨t, hexec, htaken, -, hframe⟩ := hjump s opd hp h0 h1
  exact ⟨t, hexec, htaken trivial, hframe⟩

/-- Settles O12: each of the three is the jump of its own test of ACC. -/
theorem conditionalJumps : Obligations.ConditionalJumps :=
  ⟨jumpsIf_of_exec (by decide) (fun _ => rfl) (fun _ _ => rfl) fun _ => decide_eq_true_iff,
    jumpsIf_of_exec (by decide) (fun _ => rfl) (fun _ _ => rfl) fun _ => decide_eq_true_iff,
    jumpsIf_of_exec (by decide) (fun _ => rfl) (fun _ _ => rfl) fun _ => decide_eq_true_iff⟩

end Sys2Proof.Machine
end

section
/-! PROOFS. Input and output (spec/44_io.md R110 to R112): PW emits one word, RW waits for one and stores it, and what a
step adds to the history and takes from the inputs. -/

namespace Sys2Proof.Machine

variable {s t u : State} {i : Instr} {opd : Int} {a : Nat} {v : Word} {rest : List Word}

/-! PW. -/

/-- PW with its operand in range is the output of the word there and the advance (R110). -/
theorem exec_pw_of_range (h0 : 0 ≤ opd) (h1 : opd < 128) :
    exec (.pw opd) s = .next (s.emit (.output (s.word opd.toNat))).advance := by
  rw [exec, execPw, withDataAddress_of_range h0 h1]

/-- Settles O14: the words decode by their digit groups, and PW is the output and the advance. -/
theorem printWord : Obligations.PrintWord := by
  refine ⟨fun w hlo hhi => ?_, fun s opd hp h0 h1 => ?_⟩
  · exact decode_of_hundred (op := 10) (by decide) hlo hhi
  · exact ⟨_, exec_pw_of_range h0 (by omega), State.advance_events _,
      advance_advancedFrom (s := s.emit (.output (s.word opd.toNat))) hp, State.advance_acc _, advance_sameMemory _,
      advance_sameInert _, State.advance_inputs _, State.advance_waiting _⟩

/-! RW: its three transitions. -/

/-- RW with its operand in range is the completion of a core that waits and the issue of one that does not (R111). -/
theorem exec_rw_of_range (h0 : 0 ≤ opd) (h1 : opd < 128) :
    exec (.rw opd) s = .next (if s.waiting then rwComplete opd.toNat s else rwIssue s) := by
  rw [exec, execRw, withDataAddress_of_range h0 h1]

theorem rwComplete_of_no_input (h : s.inputs = []) : rwComplete a s = s := by
  rw [rwComplete, h]

/-- The completion with a next input stores it, takes it from the inputs, clears WAITING and advances (R111). -/
theorem exec_rw_of_input (h0 : 0 ≤ opd) (h1 : opd < 128) (hw : s.waiting = true) (hin : s.inputs = v :: rest) :
    exec (.rw opd) s = .next (((s.storeHD opd.toNat v).setInputs rest).setWaiting false).advance := by
  rw [exec_rw_of_range h0 h1, if_pos hw, rwComplete, hin]

/-- Settles O15: the words decode by their digit groups, and each of RW's transitions is the issue, the wait or the
completion. -/
theorem readWord : Obligations.ReadWord := by
  refine ⟨fun w hlo hhi => ?_, fun s opd h0 h1 hw => ?_, fun s opd h0 h1 hw hin => ?_,
    fun s opd v rest hp h0 h1 hw hin => ?_⟩
  · exact decode_of_hundred (op := 11) (by decide) hlo hhi
  · rw [exec_rw_of_range h0 (by omega), hw]
    rfl
  · rw [exec_rw_of_range h0 (by omega), if_pos hw, rwComplete_of_no_input hin]
  · have hkept := advance_sameMemory (((s.storeHD opd.toNat v).setInputs rest).setWaiting false)
    refine ⟨opd.toNat, _, dataAddress_of_range h0 (by omega), by omega, exec_rw_of_input h0 (by omega) hw hin,
      ?_, fun k hk => (hkept k).trans (storeHD_sameMemoryBut _ _ k hk), State.advance_waiting _, State.advance_inputs _,
      advance_advancedFrom (s := ((s.storeHD opd.toNat v).setInputs rest).setWaiting false) hp, State.advance_acc _,
      State.advance_events _, advance_sameInert _⟩
    rw [State.advance_word, State.setWaiting_word, State.setInputs_word, storeHD_word_same_toInt]

/-! The history and the inputs over a step. -/

/-- A well-formed unrecognized instruction has no opcode of the table (R63). -/
theorem opcode_outside_table_of_wf {opcode : Int} (h : (Instr.unrecognized opcode opd).wf = true) :
    opcode < 0 ∨ 13 ≤ opcode := by
  simp only [Instr.wf, opcodeUnrecognized, Bool.and_eq_true, decide_eq_true_eq] at h
  obtain ⟨⟨hopcode, -⟩, -⟩ := h
  exact hopcode

/-- Dispatch of a recognized instruction other than PW leaves the history (R112). -/
theorem DispatchEffect.events_of_silent (h : DispatchEffect s i u) (hwf : i.wf = true) (hpw : i.opcode ≠ 10)
    (h0 : 0 ≤ i.opcode) (h12 : i.opcode ≤ 12) : u.events = s.events := by
  cases h with
  | output => exact absurd rfl hpw
  | report opcode opd =>
    have hopcode := opcode_outside_table_of_wf hwf
    simp only [Instr.opcode] at h0 h12
    omega
  | load | store | add | mul | sub | div | untaken => rfl

/-- A ready step at a recognized instruction other than PW leaves the history (R112). -/
theorem StepEffect.events_of_silent (h : StepEffect s t) (hpw : (fetch s).opcode ≠ 10) (h0 : 0 ≤ (fetch s).opcode)
    (h12 : (fetch s).opcode ≤ 12) : t.events = s.events := by
  cases h with
  | advance hu _ => exact (State.advance_events _).trans (hu.events_of_silent (fetch_wf s) hpw h0 h12)
  | jump | stop | stopAtLast => exact State.advance_events _
  | issue | divisionByZero | operandOutOfBounds => rfl

/-- A ready step takes no input (R111). -/
theorem StepEffect.inputs_eq (h : StepEffect s t) : t.inputs = s.inputs := by
  cases h with
  | advance hu _ =>
    obtain ⟨-, -, -, -, -, -, -, hin, -⟩ := hu.keeps
    exact (State.advance_inputs _).trans hin
  | jump | stop | stopAtLast => exact State.advance_inputs _
  | issue | divisionByZero | operandOutOfBounds => rfl

/-- A ready step at a PW emits the word at its operand (R110). -/
theorem events_of_ready_pw (hready : ReadyToFetch s) (hs : step s = .next t) (hf : fetch s = .pw opd) :
    t.events = s.events ++ [.output (s.word opd.toNat)] := by
  obtain ⟨h0, h1⟩ := operand_range (wf_of_fetch hf)
  rw [step_of_ready hready, hf, exec_pw_of_range h0 (by omega)] at hs
  cases hs
  exact State.advance_events _

/-- A ready step at an unrecognized word reports the fetched word: its fields, packed again (R116). -/
theorem events_of_ready_unrecognized {opcode : Int} (hready : ReadyToFetch s) (hs : step s = .next t)
    (hf : fetch s = .unrecognized opcode opd) :
    t.events = s.events ++ [.unknownOpcode s.pc (s.word s.pc.toNat) opcode] := by
  have hword : encode (fetch s) = s.word s.pc.toNat := encodeAfterDecode _
  rw [step_of_ready hready, hf] at hs
  cases hs
  rw [← hword, hf]
  exact State.advance_events _

/-- Settles O30: a core that does not wait runs the fetched instruction; one that waits stays as it is or completes its
RW with the next input. -/
theorem historyGrowsInProgramOrder : Obligations.HistoryGrowsInProgramOrder := by
  intro s t hc hr hp hs
  cases hw : s.waiting with
  | false =>
    have hready : ReadyToFetch s := ⟨hc, hr, hw, hp⟩
    obtain ⟨u, hu, heff⟩ := step_effect hready
    obtain rfl : u = t := by simpa [hu] using hs
    refine ⟨fun _ _ => events_of_ready_pw hready hs, fun _ _ _ => events_of_ready_unrecognized hready hs, fun h => ?_,
      fun _ => heff.inputs_eq, fun h => by cases h⟩
    obtain h | ⟨hpw, h0, h12⟩ := h
    · cases h
    · exact heff.events_of_silent hpw h0 h12
  | true =>
    obtain ⟨hself, hwhy⟩ | ⟨opd, v, rest, -, -, -, hin, hdone⟩ := waiting_step_effect hc hr hw
    · obtain rfl : s = t := by simpa [hself] using hs
      refine ⟨by simp, by simp, fun _ => rfl, fun _ => rfl, fun _ opd v rest hf hin => ?_⟩
      obtain hempty | hother := hwhy
      · simp [hempty] at hin
      · exact absurd hf (hother opd)
    · rw [hdone] at hs
      cases hs
      refine ⟨by simp, by simp, fun _ => State.advance_events _, by simp, fun _ _ v' rest' _ hin' => ?_⟩
      rw [hin] at hin'
      cases hin'
      exact State.advance_inputs _

end Sys2Proof.Machine
end

section
/-! PROOFS. STOP and the unrecognized words (spec/45_system.md R115, R116): STOP halts behind the advance and its bound
check, and an unrecognized word is reported and stepped over. -/

namespace Sys2Proof.Machine

variable {s : State} {w : Word} {opd : Int}

/-! STOP, below the last address and at it. -/

/-- STOP below the last address is the advance and then RS = STOPPED (R115). -/
theorem exec_stop_of_lt (h : s.pc.toNat < 127) : exec (.stop opd) s = .next (s.advance.setRs .stopped) := by
  rw [exec, execStop, stopUnlessFaulted, decide_eq_true (show s.pc.toNat + 1 < 128 by omega), if_pos rfl]

/-- STOP at the last address is the advance alone, whose bound check ends the run first (R115). -/
theorem exec_stop_of_last (h : s.pc.toNat = 127) : exec (.stop opd) s = .next s.advance := by
  rw [exec, execStop, stopUnlessFaulted, decide_eq_false (show ¬ s.pc.toNat + 1 < 128 by omega), if_neg (by decide)]

/-- Settles O16: the words decode by their digit groups, and STOP is the advance, with RS = STOPPED after it where PC
stays in the bank. -/
theorem stopHalts : Obligations.StopHalts := by
  refine ⟨fun w hlo hhi => ?_, fun s opd hp _ _ => ?_⟩
  · exact decode_of_hundred (op := 12) (by decide) hlo hhi
  obtain ⟨hpc, hin, -⟩ := advance_advancedFrom hp
  obtain hl | hl : s.pc.toNat < 127 ∨ s.pc.toNat = 127 := by omega
  · obtain ⟨-, hfr⟩ := hin (by omega)
    refine ⟨_, exec_stop_of_lt hl, ?_, fun _ => ⟨rfl, hfr⟩, fun _ => by omega, State.advance_acc s,
      advance_sameMemory s, advance_sameInert s, advance_sameIo s⟩
    rw [State.setRs_pc]
    omega
  · obtain ⟨-, hrs, hfr⟩ := advance_faulted_of_last hl
    exact ⟨_, exec_stop_of_last hl, by omega, fun _ => by omega, fun _ => ⟨hrs, hfr⟩, State.advance_acc s,
      advance_sameMemory s, advance_sameInert s, advance_sameIo s⟩

/-! The unrecognized words. -/

/-- A word outside -99..1299 decodes to the unrecognized form of its own digit groups (R61, R63). -/
theorem decode_of_unrecognized (h : 1300 ≤ w.toInt ∨ w.toInt ≤ -100) :
    decode w = .unrecognized (w.toInt.tdiv 100) (w.toInt.tmod 100) := by
  obtain ⟨hsum, hpos, hneg⟩ := digits_spec w.toInt
  rw [decode_eq, instrOf_of_unrecognized (by omega)]

/-- The unrecognized form of a word's digit groups is the report of that word and the advance (R116, R122). -/
theorem exec_unrecognized_of_word (s : State) (w : Word) :
    exec (.unrecognized (w.toInt.tdiv 100) (w.toInt.tmod 100)) s =
      .next (s.emit (.unknownOpcode s.pc w (w.toInt.tdiv 100))).advance := by
  have hword : encodePair (w.toInt.tdiv 100) (w.toInt.tmod 100) = w := encodePair_decodeFields w
  rw [exec, execUnrecognized, hword]

/-- Settles O17: an opcode outside the table has no instruction, and its report, which packs the digit groups again,
shows the whole word. -/
theorem unrecognizedIsReported : Obligations.UnrecognizedIsReported := by
  intro w hw
  refine ⟨decode_of_unrecognized hw, fun s hp => ?_⟩
  exact ⟨_, exec_unrecognized_of_word s w, State.advance_events _,
    advance_advancedFrom (s := s.emit (.unknownOpcode s.pc w (w.toInt.tdiv 100))) hp, State.advance_acc _,
    advance_sameMemory _, advance_sameInert _, State.advance_inputs _, State.advance_waiting _⟩

end Sys2Proof.Machine
end

section
/-! PROOFS. Exceptions and the host (spec/60_exceptions.md R120 to R142): a step always has a next state, a fault raised
in dispatch is precise, an ended run is left by reset alone, and load and start act in IDLE. -/

namespace Sys2Proof.Machine

variable {s t : State} {c : HostCmd} {rest : List (Option HostCmd)}

/-! Faults raised in dispatch. -/

/-- The advance of a core that has not faulted faults in the bound check only (R74, R123). -/
theorem pcOutOfBounds_of_advance (h : s.advance.rs = .faulted) (hr : s.rs ≠ .faulted) :
    s.advance.fr.kind = .pcOutOfBounds := by
  unfold State.advance at h ⊢
  split at h
  · exact absurd h hr
  · next hlast =>
    rw [if_neg hlast]
    rfl

/-- A fault raised in dispatch writes RS and FR alone, and FR names PC and the instruction there: the DIV whose divisor
word is 0 or the LA with a negative operand (R124, R125, R127). -/
def PreciseFault (s t : State) : Prop :=
  t = { s with rs := .faulted, fr := { kind := t.fr.kind, addr := s.pc, operand := t.fr.operand } } ∧
    ((t.fr.kind = .divisionByZero ∧ fetch s = .div t.fr.operand.toInt ∧ s.word t.fr.operand.toNat = 0) ∨
      (t.fr.kind = .operandOutOfBounds ∧ fetch s = .la t.fr.operand.toInt ∧ t.fr.operand.toInt < 0))

/-- A ready step that faults elsewhere than in a bound check faulted in dispatch. -/
theorem StepEffect.preciseFault (h : StepEffect s t) (hready : ReadyToFetch s) (ht : t.rs = .faulted)
    (hkind : t.fr.kind ≠ .pcOutOfBounds) : PreciseFault s t := by
  obtain ⟨-, hr, -, hp⟩ := hready
  have hrun : s.rs ≠ .faulted := by simp [hr]
  cases h with
  | advance hu _ =>
    obtain ⟨-, hrs, -⟩ := hu.keeps
    exact absurd (pcOutOfBounds_of_advance ht (hrs ▸ hrun)) hkind
  | jump | stopAtLast => exact absurd (pcOutOfBounds_of_advance ht hrun) hkind
  | stop => cases ht
  | issue => exact absurd ht hrun
  | divisionByZero h0 h1 hf hz =>
    obtain ⟨-, -, -, hrecord, -⟩ := recordMatches_divisionByZero hp h0 h1 hf hz
    obtain ⟨-, -, hculprit, hzero⟩ := hrecord rfl
    exact ⟨rfl, .inl ⟨rfl, hculprit, hzero⟩⟩
  | operandOutOfBounds h0 h1 hf =>
    obtain ⟨-, -, -, -, hrecord⟩ := recordMatches_operandOutOfBounds hp h0 h1 hf
    obtain ⟨-, -, hculprit, hneg⟩ := hrecord rfl
    exact ⟨rfl, .inr ⟨rfl, hculprit, hneg⟩⟩

/-- Settles O22: of all that a core step can do, only a ready step faults with another kind than the bound fault, and
it does so in dispatch. -/
theorem dispatchFaultsArePrecise : Obligations.DispatchFaultsArePrecise := by
  intro s t hc hr h ht hkind
  have hrun : s.rs ≠ .faulted := by simp [hr]
  obtain ⟨u, hu, heff⟩ := core_step_effect hc
  obtain rfl : u = t := by simpa [hu] using h
  obtain rfl | ⟨-, hw, hp, heff⟩ | ⟨-, -, -, rfl⟩ | ⟨-, -, opd, v, rest, -, -, -, -, rfl⟩ := heff
  · exact absurd ht hrun
  · exact heff.preciseFault ⟨hc, hr, hw, hp⟩ ht hkind
  · exact absurd rfl hkind
  · exact absurd (pcOutOfBounds_of_advance ht hrun) hkind

/-! Every step has a next state. -/

/-- A core step has a next state, whatever the host has yet to do. -/
theorem exists_coreStep_eq_next (s : State) : ∃ t, coreStep s = .next t := by
  obtain ⟨t, ht, -⟩ := core_step_effect (s := s.setHostCmds []) rfl
  rw [step_of_no_command rfl] at ht
  exact ⟨_, coreStep_setHostCmds ht s.hostCmds⟩

/-- Settles O24: a boundary is a step of the core or a command of the host, and each has a next state. -/
theorem everyStepHasNextState : Obligations.EveryStepHasNextState := by
  intro s
  cases hc : s.hostCmds with
  | nil => exact step_of_no_command hc ▸ exists_coreStep_eq_next s
  | cons entry rest =>
    cases entry with
    | none => exact step_of_still_boundary hc ▸ exists_coreStep_eq_next (s.setHostCmds rest)
    | some c => exact ⟨_, step_of_command hc⟩

/-! The host's commands, in IDLE and outside it. -/

/-- In IDLE a load write at a boundary writes its word (R151). -/
theorem step_of_loadWrite_of_idle {a : Fin 128} {v : Word} (h : s.hostCmds = some (.loadWrite a v) :: rest)
    (hr : s.rs = .idle) : step s = .next (loadWord (s.setHostCmds rest) a.val v) :=
  (step_of_command h).trans (congrArg Host.Outcome.next (if_pos hr))

/-- In IDLE load done at a boundary sets PS and PC (R142, R152). -/
theorem step_of_loadDone_of_idle {ps : Fin 129} {pc0 : Index8} (h : s.hostCmds = some (.loadDone ps pc0) :: rest)
    (hr : s.rs = .idle) : step s = .next (((s.setHostCmds rest).setPs (BitVec.ofNat 8 ps.val)).setPc pc0) :=
  (step_of_command h).trans (congrArg Host.Outcome.next (if_pos hr))

/-- In IDLE start at a boundary makes the core run (R154). -/
theorem step_of_start_of_idle (h : s.hostCmds = some .start :: rest) (hr : s.rs = .idle) :
    step s = .next ((s.setHostCmds rest).setRs .running) :=
  (step_of_command h).trans (congrArg Host.Outcome.next (if_pos hr))

/-- Outside IDLE no command but reset has an effect (R142, R156). -/
theorem applyHostCmd_of_not_idle (hc : c ≠ .reset) (hr : s.rs ≠ .idle) : applyHostCmd c s = s := by
  cases c with
  | reset => exact absurd rfl hc
  | loadWrite | loadDone | start => exact if_neg hr

/-- Outside IDLE a boundary with a command other than reset uses up its entry and does nothing else. -/
theorem step_of_command_of_not_idle (h : s.hostCmds = some c :: rest) (hc : c ≠ .reset) (hr : s.rs ≠ .idle) :
    step s = .next (s.setHostCmds rest) :=
  (step_of_command h).trans (congrArg Host.Outcome.next (applyHostCmd_of_not_idle hc hr))

/-- A load write leaves every byte outside its word alone (R151). -/
theorem loadWord_sameMemoryBut (s : State) (a : Nat) (v : Word) : SameMemoryBut a s (loadWord s a v) :=
  fun k hk => Memory.readByte_writeWord_of_outside s.mem a k v hk

/-- Settles O36. -/
theorem loadOnlyInIdle : Obligations.LoadOnlyInIdle := by
  refine ⟨fun s a v rest h hr => ?_, fun s c rest h hc hr => step_of_command_of_not_idle h hc hr⟩
  exact ⟨_, step_of_loadWrite_of_idle h hr, loadWord_word_same _ v, loadWord_sameMemoryBut _ _ _, rfl⟩

/-- Settles O37: the two commands leave the core running at PC0, and its first step is the fetched instruction or the
bound fault. -/
theorem startRunsFromLoadedPc : Obligations.StartRunsFromLoadedPc := by
  intro s ps pc0 h hr
  have hps : (BitVec.ofNat 8 ps.val).toNat = ps.val := by
    rw [BitVec.toNat_ofNat]
    omega
  exact ⟨_, _, step_of_loadDone_of_idle h hr, step_of_start_of_idle rfl hr, hps, rfl,
    fun hw hp => step_of_ready ⟨rfl, rfl, hw, hp⟩, fun hw hp => step_past_bank rfl rfl hw hp⟩

/-! Ended runs. -/

/-- The core's own step leaves an ended run as it is, whatever the host has yet to do (R70; log 5). -/
theorem coreStep_self_of_ended (h : RunEnded s) : coreStep s = .next s := by
  have hself : step (s.setHostCmds []) = .next (s.setHostCmds []) := step_self_of_ended rfl h
  rw [step_of_no_command rfl] at hself
  exact coreStep_setHostCmds hself s.hostCmds

/-- A step of an ended run that is not reset uses up the host's entry and does nothing else (R129, R156). -/
theorem step_of_ended (h : RunEnded s) (hreset : some HostCmd.reset ∉ s.hostCmds) :
    step s = .next (s.setHostCmds s.hostCmds.tail) := by
  cases hc : s.hostCmds with
  | nil =>
    rw [step_self_of_ended hc h, List.tail_nil, ← hc]
    rfl
  | cons entry rest =>
    cases entry with
    | none => exact (step_of_still_boundary hc).trans (coreStep_self_of_ended h)
    | some c =>
      have hother : c ≠ .reset := by
        rintro rfl
        simp [hc] at hreset
      have hidle : s.rs ≠ .idle := by
        obtain hr | hr := h <;> simp [hr]
      exact step_of_command_of_not_idle hc hother hidle

/-- Settles O41: each step uses up one entry of the host's list, and leaves the run ended and the rest of the list
without a reset. -/
theorem endedRunIsImmutable : Obligations.EndedRunIsImmutable := by
  intro k
  induction k with
  | zero => exact fun s _ _ => rfl
  | succ k ih =>
    intro s h hreset
    rw [run_succ_of_step (step_of_ended h hreset),
      ih (s.setHostCmds s.hostCmds.tail) h fun hmem => hreset (List.mem_of_mem_tail hmem), State.setHostCmds_hostCmds,
      List.drop_tail]
    rfl

end Sys2Proof.Machine
end

section
/-! PROOFS. Reset (spec/70_reset_and_hazards.md R150): the reset command gives every item its reset value in any state,
and nothing else leaves STOPPED or FAULTED. -/

namespace Sys2Proof.Machine

variable {s : State} {rest : List (Option HostCmd)}

/-- Reset at a boundary takes the core to its reset values and keeps only the host's own lists (R150; log 3). -/
theorem step_of_reset (h : s.hostCmds = some .reset :: rest) :
    step s = .next ((State.reset.setInputs s.inputs).setHostCmds rest) :=
  step_of_command h

/-- A step of an ended run uses up the host's entry and does nothing else unless that entry is a reset; a reset later in
the list does not matter yet (R129, R156). -/
theorem step_of_ended_of_head_ne_reset (h : RunEnded s) (hreset : ∀ rest, s.hostCmds ≠ some .reset :: rest) :
    step s = .next (s.setHostCmds s.hostCmds.tail) := by
  cases hc : s.hostCmds with
  | nil => exact hc ▸ step_of_ended h (by simp [hc])
  | cons entry rest =>
    cases entry with
    | none => exact (step_of_still_boundary hc).trans (coreStep_self_of_ended h)
    | some c =>
      have hother : c ≠ .reset := fun hce => hreset rest (hce ▸ hc)
      have hidle : s.rs ≠ .idle := by
        obtain hr | hr := h <;> simp [hr]
      exact step_of_command_of_not_idle hc hother hidle

/-- Settles O35: only a reset changes RS of an ended run, and reset in any state gives every item its reset value. -/
theorem resetCommandInAnyState : Obligations.ResetCommandInAnyState := by
  refine ⟨fun s t h hs hne => ?_, fun s rest h => ?_⟩
  · by_contra hreset
    cases (step_of_ended_of_head_ne_reset h (not_exists.mp hreset)).symm.trans hs
    exact hne rfl
  · exact ⟨_, step_of_reset h, rfl, rfl, rfl, rfl, rfl, fun a _ => reset_word a, rfl, rfl, rfl, rfl, rfl⟩

end Sys2Proof.Machine
end

section
/-! PROOFS. The one form of memory (spec/20_memory.md R41; log 1): the words determine the bytes, and in the one form the
bytes determine the entries and the keys their order. -/

namespace Sys2Proof.Machine.Memory

variable {m n : Memory} {c : Host.Cell} {k : Nat}

/-! The entries of a memory and the bytes it reads. -/

/-- With rising keys an entry is the byte read at its key: no earlier entry has that key. -/
theorem readByte_of_mem (h : m.Pairwise fun c d => c.1 < d.1) (hc : c ∈ m) : m.readByte c.1 = c.2 := by
  induction m with
  | nil => cases hc
  | cons d m ih =>
    obtain ⟨hd, hm⟩ := List.pairwise_cons.mp h
    rcases List.mem_cons.mp hc with rfl | hc
    · exact if_pos rfl
    · exact (if_neg (hd c hc).ne).trans (ih hm hc)

/-- A byte that does not read as an unlisted one is listed: of every list, in the one form or not. -/
theorem mem_of_readByte_ne (h : m.readByte k ≠ Config.unlistedByte) : (k, m.readByte k) ∈ m := by
  induction m with
  | nil => exact absurd rfl h
  | cons d m ih =>
    unfold readByte at h ⊢
    split at h
    · next hd => simp [← hd]
    · next hd =>
      rw [if_neg hd]
      exact List.mem_cons_of_mem _ (ih h)

/-- A byte of memory is a byte of the word it stands in. -/
theorem readByte_eq_byteOf_readWord (m : Memory) (k : Nat) : m.readByte k = byteOf (m.readWord (k / 4)) (k % 4) := by
  obtain ⟨h0, h1, h2, h3⟩ := byteOf_wordOfBytes (m.readByte (4 * (k / 4))) (m.readByte (4 * (k / 4) + 1))
    (m.readByte (4 * (k / 4) + 2)) (m.readByte (4 * (k / 4) + 3))
  have hk : k = 4 * (k / 4) + k % 4 := by omega
  have hr : k % 4 = 0 ∨ k % 4 = 1 ∨ k % 4 = 2 ∨ k % 4 = 3 := by omega
  unfold readWord
  rcases hr with hr | hr | hr | hr <;> rw [hr] at hk ⊢
  · rw [h0, ← Nat.add_zero (4 * _), ← hk]
  · rw [h1, ← hk]
  · rw [h2, ← hk]
  · rw [h3, ← hk]

/-! Memories with the same words. -/

/-- Each entry of a memory in the one form stands in every memory with the same words. -/
theorem subset_of_readWord_eq (hm : m.wf) (h : ∀ a : Nat, a < 128 → m.readWord a = n.readWord a) : m ⊆ n := by
  obtain ⟨hsorted, hlisted⟩ := hm
  intro c hc
  obtain ⟨hne, hlt⟩ := hlisted c hc
  have hread : n.readByte c.1 = c.2 := by
    rw [readByte_eq_byteOf_readWord, ← h _ (Nat.div_lt_of_lt_mul hlt), ← readByte_eq_byteOf_readWord,
      readByte_of_mem hsorted hc]
  have hmem := mem_of_readByte_ne (hread.trans_ne hne)
  rwa [hread] at hmem

end Sys2Proof.Machine.Memory

namespace Sys2Proof.Machine

/-- Settles O31: each memory has the other's entries, and a list with rising keys is fixed by its entries. -/
theorem canonicalMemoryIsUnique : Obligations.CanonicalMemoryIsUnique := by
  intro m n hm hn h
  have hanti : Std.Antisymm fun c d : Host.Cell => c.1 < d.1 := ⟨fun _ _ hcd hdc => absurd hcd hdc.asymm⟩
  have hirrefl : Std.Irrefl fun c d : Host.Cell => c.1 < d.1 := ⟨fun _ => Nat.lt_irrefl _⟩
  exact List.Subset.antisymm_of_pairwise hm.1 hn.1 (Memory.subset_of_readWord_eq hm h)
    (Memory.subset_of_readWord_eq hn fun a ha => (h a ha).symm)

end Sys2Proof.Machine
end
